-- ==== Sys2Proof/Word.lean ====
section
/-! DEFINITION. The plain types the machine is made of: the word, register numbers, character codes, the GPU's
bit images, and the text an instruction is written in. Arithmetic on words is in Machine/Alu.lean. -/

namespace Sys2Proof

/-- A word: a 16-bit pattern (R7, R20). A register holds one, and so does a RAM cell (R28). -/
abbrev Word := BitVec 16

/-- The number of a general register, 0 to 31 (R20). -/
abbrev RegNum := Fin 32

/-- What the keyboard delivers: a "6-bit character code" (R150). Codes 43 to 63 fit and name no character (R151). -/
abbrev KeyCode := BitVec 6

/-- A character code 0 to 42, what a text slot holds (R38, R151). -/
abbrev CharCode := Fin 43

/-- One coordinate of a pixel, 0 to 31 (R36). -/
abbrev Coord := Fin 32

/-- A pixel buffer: 32 rows of 32 pixels, top row first and left pixel first; `true` is 1, white (R36). -/
abbrev Buffer := Vector (Vector Bool 32) 32

/-- A sprite: 15 bits, bit 14 the top-left pixel, row-major, 5 wide and 3 tall (R37). -/
abbrev SpriteData := BitVec 15

/-- A glyph of the font: 5 rows of 5 pixels (R169). Its pixels are no number, so no bit order is chosen. -/
abbrev Glyph := Vector (Vector Bool 5) 5

/-- A bitmap drawn on the edit buffer, with the kind BLIT is told (R167): a sprite or a glyph of text. -/
inductive Bitmap where
  | sprite (d : SpriteData)
  | text (g : Glyph)
  deriving DecidableEq, Repr

/-- Assembly text, one character an entry. The machine has no instruction bits (R70). -/
abbrev Text := List Char

end Sys2Proof
end

