-- ==== Sys2Proof/Machine/Alu.lean ====
section
/-! DEFINITION. Arithmetic on words (R7, R110 to R123, R130 to R133): each operation computes the exact integer and narrows
it at the end. -/

namespace Sys2Proof.Machine

/-- `u16(n)`: an integer reduced modulo 65536 (R7). -/
def u16 (n : Int) : Word := BitVec.ofInt 16 n

/-- `s16(w)`: the two's-complement reading of a word (R7). -/
def s16 (w : Word) : Int := if w.toNat < 0x8000 then (w.toNat : Int) else (w.toNat : Int) - 65536

/-- `zext_16(c)`: a 6-bit code as a word (R7, R150). -/
def zext16 (c : KeyCode) : Word := BitVec.ofNat 16 c.toNat

/-- ADD's result (R110). -/
def addWord (a b : Word) : Word := u16 ((a.toNat : Int) + b.toNat)

/-- SUB's result (R111). -/
def subWord (a b : Word) : Word := u16 ((a.toNat : Int) - b.toNat)

/-- MULT's 32-bit product p of the unsigned words (R112). -/
def product (a b : Word) : BitVec 32 := BitVec.ofNat 32 (a.toNat * b.toNat)

/-- p[15:0] (R112). -/
def productLow (a b : Word) : Word := (product a b).extractLsb' 0 16

/-- p[31:16] (R112). -/
def productHigh (a b : Word) : Word := (product a b).extractLsb' 16 16

/-- DIV's quotient word, `u16(div_trunc(a, b))` of the signed readings (R113). -/
def quotient (a b : Word) : Word := u16 (Int.tdiv (s16 a) (s16 b))

/-- DIV's remainder word, `u16(a - q * b)` of the signed readings (R113). -/
def remainder (a b : Word) : Word := u16 (s16 a - Int.tdiv (s16 a) (s16 b) * s16 b)

/-- SHL's result (R120); amounts of 16 or more by R123. -/
def shiftLeft (a n : Word) : Word := if n.toNat ≤ 15 then u16 ((a.toNat * 2 ^ n.toNat : Nat) : Int) else 0

/-- SHR's result (R121); amounts of 16 or more by R123. -/
def shiftRight (a n : Word) : Word := if n.toNat ≤ 15 then u16 ((a.toNat / 2 ^ n.toNat : Nat) : Int) else 0

/-- SHLR's result (R122); the amount modulo 16 by R123. -/
def rotateLeft (a n : Word) : Word :=
  if n.toNat % 16 = 0 then a
  else u16 ((a.toNat * 2 ^ (n.toNat % 16) : Nat) : Int) ||| u16 ((a.toNat / 2 ^ (16 - n.toNat % 16) : Nat) : Int)

/-- AND's result (R130). -/
def andWord (a b : Word) : Word := a &&& b

/-- OR's result (R131). -/
def orWord (a b : Word) : Word := a ||| b

/-- XOR's result (R132). -/
def xorWord (a b : Word) : Word := a ^^^ b

/-- NOT's result, `0xFFFF - w` (R133). -/
def notWord (a : Word) : Word := ~~~a

end Sys2Proof.Machine
end

