-- ==== Sys2Proof/Config.lean ====
section
/-! DEFINITION. What the spec leaves open as a FUNCTION: the parameters LINE, BLIT and FONT of R5. Each is an opaque
constant with no body, so no proof can see a value of it and every claim holds for every such function. The parameters that are
plain data (RAM_SIZE, PROG, PROG_BASE, GPU_ATTACHED, the keyboard's characters) stand in State, where a claim over every
state ranges over all of them. -/

namespace Sys2Proof

/-- `LINE` (R163, log 6): is the pixel (x, y) in the set of pixels the line from (x1, y1) to (x2, y2) draws? The spec
gives no algorithm ("pixel-perfect" is not defined), so nothing is known of the set but that it lies in the buffer. -/
opaque Config.line (x1 y1 x2 y2 x y : Coord) : Bool

/-- `BLIT` (R167, R169, log 7): the edit buffer after a bitmap is drawn on it at (x, y). The anchor, the meaning of a 0 bit
and what happens past the edge are all open. -/
opaque Config.blit (bitmap : Bitmap) (old : Buffer) (x y : Coord) : Buffer

/-- `FONT` (R169, log 8): the 5x5 glyph of a character code. No glyph is in the source. -/
opaque Config.font (c : CharCode) : Glyph

end Sys2Proof
end

