-- ==== Sys2Proof/Syntax.lean ====
section
/-! DEFINITION. Instructions as terms (R70): operands, operand kinds, formats, the 30 mnemonics, and the one inductive
Instr with a constructor for every row of spec/opcode_table.json. -/

namespace Sys2Proof

/-- An operand of a loaded term (R72): a register number or an immediate word. A label is an immediate after load. -/
inductive Operand where
  | reg (n : RegNum)
  | imm (v : Word)
  deriving DecidableEq, Repr

/-- The four kinds of operand position (R73). -/
inductive Kind where
  | s   -- S: a value, register or immediate
  | a   -- A: a RAM address, register or immediate
  | t   -- T: a jump target, label, immediate or register
  | r   -- R: register only; an immediate is rejected at runtime
  deriving DecidableEq, Repr

/-- The 14 formats (R74). -/
inductive Format where
  | z | ss | r | sa | ar | sr | aa | t | ts | tss | a | g4 | g3 | g2
  deriving DecidableEq, Repr

/-- The operand kinds of a format, in order (R74). -/
def Format.kinds : Format → List Kind
  | .z => []
  | .ss => [.s, .s]
  | .r => [.r]
  | .sa => [.s, .a]
  | .ar => [.a, .r]
  | .sr => [.s, .r]
  | .aa => [.a, .a]
  | .t => [.t]
  | .ts => [.t, .s]
  | .tss => [.t, .s, .s]
  | .a => [.a]
  | .g4 => [.s, .s, .s, .s]
  | .g3 => [.s, .s, .s]
  | .g2 => [.s, .s]

/-- The 30 mnemonics, in the source's order (R2, R82). -/
inductive Mnemonic where
  | load | read | mvr | mvm
  | add | sub | mult | div
  | shl | shr | shlr
  | and | or | xor | not
  | jmp | jal | jz | jnz | jbt
  | keyin | halt
  | drline | drgrd | clrgrid | ldspr | drspr | ldtxt | drtxt | scrlbfr
  deriving DecidableEq, Repr

/-- Every mnemonic once, in the source's order (R2). -/
def Mnemonic.all : List Mnemonic :=
  [.load, .read, .mvr, .mvm, .add, .sub, .mult, .div, .shl, .shr, .shlr, .and, .or, .xor, .not, .jmp, .jal, .jz, .jnz,
    .jbt, .keyin, .halt, .drline, .drgrd, .clrgrid, .ldspr, .drspr, .ldtxt, .drtxt, .scrlbfr]

/-- The format of each mnemonic (R82). -/
def Mnemonic.format : Mnemonic → Format
  | .load => .sa
  | .read => .ar
  | .mvr => .sr
  | .mvm => .aa
  | .add => .ss
  | .sub => .ss
  | .mult => .ss
  | .div => .ss
  | .shl => .ss
  | .shr => .ss
  | .shlr => .ss
  | .and => .ss
  | .or => .ss
  | .xor => .ss
  | .not => .r
  | .jmp => .t
  | .jal => .t
  | .jz => .ts
  | .jnz => .ts
  | .jbt => .tss
  | .keyin => .a
  | .halt => .z
  | .drline => .g4
  | .drgrd => .g4
  | .clrgrid => .g4
  | .ldspr => .g2
  | .drspr => .g3
  | .ldtxt => .g2
  | .drtxt => .g3
  | .scrlbfr => .g2

/-- One instruction: a mnemonic with its operands in the source's order (R70, R82). -/
inductive Instr where
  | load (src dstAddr : Operand)
  | read (srcAddr dst : Operand)
  | mvr (src dst : Operand)
  | mvm (srcAddr dstAddr : Operand)
  | add (a b : Operand)
  | sub (a b : Operand)
  | mult (a b : Operand)
  | div (a b : Operand)
  | shl (a b : Operand)
  | shr (a b : Operand)
  | shlr (a b : Operand)
  | and (a b : Operand)
  | or (a b : Operand)
  | xor (a b : Operand)
  | not (a : Operand)
  | jmp (target : Operand)
  | jal (target : Operand)
  | jz (target cond : Operand)
  | jnz (target cond : Operand)
  | jbt (target x y : Operand)
  | keyin (addr : Operand)
  | halt
  | drline (x1 y1 x2 y2 : Operand)
  | drgrd (x y width height : Operand)
  | clrgrid (x y width height : Operand)
  | ldspr (id data : Operand)
  | drspr (id x y : Operand)
  | ldtxt (id charCode : Operand)
  | drtxt (id x y : Operand)
  | scrlbfr (offx offy : Operand)
  deriving DecidableEq, Repr

/-- The mnemonic of a term. -/
def Instr.mnemonic : Instr → Mnemonic
  | .load _ _ => .load
  | .read _ _ => .read
  | .mvr _ _ => .mvr
  | .mvm _ _ => .mvm
  | .add _ _ => .add
  | .sub _ _ => .sub
  | .mult _ _ => .mult
  | .div _ _ => .div
  | .shl _ _ => .shl
  | .shr _ _ => .shr
  | .shlr _ _ => .shlr
  | .and _ _ => .and
  | .or _ _ => .or
  | .xor _ _ => .xor
  | .not _ => .not
  | .jmp _ => .jmp
  | .jal _ => .jal
  | .jz _ _ => .jz
  | .jnz _ _ => .jnz
  | .jbt _ _ _ => .jbt
  | .keyin _ => .keyin
  | .halt => .halt
  | .drline _ _ _ _ => .drline
  | .drgrd _ _ _ _ => .drgrd
  | .clrgrid _ _ _ _ => .clrgrid
  | .ldspr _ _ => .ldspr
  | .drspr _ _ _ => .drspr
  | .ldtxt _ _ => .ldtxt
  | .drtxt _ _ _ => .drtxt
  | .scrlbfr _ _ => .scrlbfr

/-- The operands of a term, in order (R70). -/
def Instr.operands : Instr → List Operand
  | .load x y => [x, y]
  | .read x y => [x, y]
  | .mvr x y => [x, y]
  | .mvm x y => [x, y]
  | .add x y => [x, y]
  | .sub x y => [x, y]
  | .mult x y => [x, y]
  | .div x y => [x, y]
  | .shl x y => [x, y]
  | .shr x y => [x, y]
  | .shlr x y => [x, y]
  | .and x y => [x, y]
  | .or x y => [x, y]
  | .xor x y => [x, y]
  | .not x => [x]
  | .jmp x => [x]
  | .jal x => [x]
  | .jz x y => [x, y]
  | .jnz x y => [x, y]
  | .jbt x y z => [x, y, z]
  | .keyin x => [x]
  | .halt => []
  | .drline x y z w => [x, y, z, w]
  | .drgrd x y z w => [x, y, z, w]
  | .clrgrid x y z w => [x, y, z, w]
  | .ldspr x y => [x, y]
  | .drspr x y z => [x, y, z]
  | .ldtxt x y => [x, y]
  | .drtxt x y z => [x, y, z]
  | .scrlbfr x y => [x, y]

end Sys2Proof
end

