-- ==== Sys2Proof/WellFormed.lean ====
section
/-! DEFINITION. The checks a loaded program has passed. That a register number is 0 to 31, an immediate a word and
an operand count the format's (R84 b, c, d) is in the types of Syntax.lean; what is left is said here. The checks on the text
(mnemonic, literals, labels, the name GPU) are the decoder's, in Decode.lean. -/

namespace Sys2Proof

/-- A term the loader accepts (R84): all but `JAL` with the register operand 2 (R84 g, R141). -/
def Instr.wf : Instr → Bool
  | .load _ _ => true
  | .read _ _ => true
  | .mvr _ _ => true
  | .mvm _ _ => true
  | .add _ _ => true
  | .sub _ _ => true
  | .mult _ _ => true
  | .div _ _ => true
  | .shl _ _ => true
  | .shr _ _ => true
  | .shlr _ _ => true
  | .and _ _ => true
  | .or _ _ => true
  | .xor _ _ => true
  | .not _ => true
  | .jmp _ => true
  | .jal target => target != .reg 2
  | .jz _ _ => true
  | .jnz _ _ => true
  | .jbt _ _ _ => true
  | .keyin _ => true
  | .halt => true
  | .drline _ _ _ _ => true
  | .drgrd _ _ _ _ => true
  | .clrgrid _ _ _ _ => true
  | .ldspr _ _ => true
  | .drspr _ _ _ => true
  | .ldtxt _ _ => true
  | .drtxt _ _ _ => true
  | .scrlbfr _ _ => true

/-- `PROG_BASE + PROG_LEN <= 65536` (R27): every instruction address of the program is a word. -/
def Program.fits (base : Nat) (prog : List Instr) : Bool := decide (base + prog.length ≤ 65536)

/-- A program the loader accepts at `base`: it fits, and every term is well formed. -/
def Program.wf (base : Nat) (prog : List Instr) : Bool := Program.fits base prog && prog.all Instr.wf

/-- The bounds of the parameter RAM_SIZE (R29). -/
def ramSizeOk (n : Nat) : Bool := decide (0x2001 ≤ n ∧ n ≤ 65536)

end Sys2Proof
end

