-- ==== Sys2Proof/Machine/State.lean ====
section
/-! DEFINITION. The state of the machine (10_state.md), the reasons a step can stop, and the state after reset. -/

namespace Sys2Proof.Machine

/-- The exceptions (R181 to R186), the whole list (R187). The argument is for diagnostics only; no program reads it. -/
inductive Exception where
  /-- R181: DIV whose second operand is 0. -/
  | divideByZero
  /-- R182: an immediate in a register-only position of NOT, READ or MVR. -/
  | operandTypeError
  /-- R183: no instruction of the program stands at this instruction address. -/
  | fetchFault (addr : Nat)
  /-- R184: a RAM address at or above RAM_SIZE. -/
  | memRangeFault (addr : Word)
  /-- R186: a GPU operand outside its range, or a rectangle past the buffer edge; its position. -/
  | gpuRangeFault (position : Nat)
  deriving DecidableEq, Repr

/-- The run status (R32). -/
inductive Status where
  | running
  | halted
  | faulted (e : Exception)
  deriving DecidableEq, Repr

/-- Why no step exists (R32, R209). An exception of an instruction is NOT one of these: it is a next state whose status is
`faulted` (R185), and only the step after it answers here. -/
inductive Fault where
  /-- Raised by `step` on a machine that executed HALT: "no further step exists; this is the only final state" (R32). Safe. -/
  | halted
  /-- Raised by `step` on a machine whose status is `Faulted(e)`: "no further step exists; the state is not final" (R32). Safe. -/
  | faulted (e : Exception)
  /-- Raised by KEYIN, with its address inside RAM, while the keyboard has no character: "the machine has no step while the
  keyboard has no character" (R150, U12). The machine stays Running, unchanged, and steps once a character has come. Safe. -/
  | blocked
  deriving DecidableEq, Repr

/-- Why an instruction has no meaning here. -/
inductive Refusal where
  /-- Raised by `exec` for an instruction whose meaning is not written yet. Safe. No arm raises it now. -/
  | notModelled (mnemonic : String)
  /-- Raised by JAL with the register operand 2, which R141 refuses: the loader never lets such a term into a program
  (R84 g), so only a state no load makes reaches it. Safe. -/
  | jalLinkOperand
  deriving DecidableEq, Repr

/-- The GPU unit (R36 to R39). -/
structure Gpu where
  /-- The two pixel buffers `buf[0]` and `buf[1]` (R36). -/
  buf : Vector Buffer 2
  /-- The 32 sprite slots (R37). -/
  sprite : Vector SpriteData 32
  /-- The 16384 text slots (R38) as rising (slot, code) pairs; an unlisted slot holds code 0. -/
  text : List (Nat × CharCode)
  /-- Which buffer the drawing instructions write (R39). -/
  edit : Fin 2
  /-- Which buffer is shown (R39). -/
  disp : Fin 2
  deriving DecidableEq, Repr

/-- RAM as (address, word) pairs in one canonical form: addresses rising, no entry equal to `Memory.unlisted` (R28; a
cell is one word and has no bytes, R55). -/
abbrev Memory := List (Nat × Word)

/-- What an address that the list does not name reads as (log 3). -/
def Memory.unlisted : Word := 0

/-- What a text slot that the list does not name holds (log 5). -/
def Gpu.textUnlisted : CharCode := 0

/-- The whole state: the machine's (R20 to R39) and, with it, the parameters of the launch that are plain data (R5):
no step changes `ramSize`, `progBase` or `prog`, nor whether a GPU is attached. -/
structure State where
  /-- R0 to R31 (R20). -/
  regs : Vector Word 32
  /-- The program counter, a plain number: `pc + 1` does not wrap (R25, R27). -/
  pc : Nat
  /-- RAM (R28). -/
  ram : Memory
  /-- The run status (R32). -/
  status : Status
  /-- The characters the keyboard delivers, the next first (R35); KEYIN waits while there is none (R150). -/
  keyboard : List KeyCode
  /-- The GPU unit, if one is attached: `GPU_ATTACHED` (R160). -/
  gpu : Option Gpu
  /-- `RAM_SIZE`, the number of RAM cells (R29). -/
  ramSize : Nat
  /-- `PROG_BASE`, the instruction address of the first instruction (R31). -/
  progBase : Nat
  /-- `PROG`, the program store (R30). -/
  prog : List Instr
  deriving DecidableEq, Repr

/-- A GPU unit as reset leaves it: all black, all slots 0, buffer 0 edited and shown (log 5: the spec gives no value). -/
def Gpu.reset : Gpu where
  buf := Vector.replicate 2 (Vector.replicate 32 (Vector.replicate 32 false))
  sprite := Vector.replicate 32 0
  text := []
  edit := 0
  disp := 0

/-- The machine at the start of execution with no program loaded: `pc = PROG_BASE`, `status = Running` (R41, R200);
everything the spec leaves unspecified has the value logs 2 to 5, 9 and 12 name. -/
def State.reset : State where
  regs := Vector.replicate 32 0
  pc := 0
  ram := []
  status := .running
  keyboard := []
  gpu := some Gpu.reset
  ramSize := 65536
  progBase := 0
  prog := []

/-- What exec and step answer. -/
abbrev Result := Host.Outcome State Fault Refusal

end Sys2Proof.Machine
end

