-- ==== Sys2Proof/Machine/Cells.lean ====
section
/-! DEFINITION. Storage held as a list of (key, value) pairs in one canonical form: keys strictly rising, no value equal to
what an unlisted key reads as. RAM and the text slots are kept so. -/

namespace Sys2Proof.Machine

/-- The value at key `k`, `d` if the list does not name it. -/
def Cells.read {α : Type} (d : α) : List (Nat × α) → Nat → α
  | [], _ => d
  | c :: cs, k => if c.1 = k then c.2 else Cells.read d cs k

/-- The list without key `k`. -/
def Cells.erase {α : Type} (m : List (Nat × α)) (k : Nat) : List (Nat × α) := m.filter (fun c => c.1 != k)

/-- The list with (k, v) put before the first greater key. -/
def Cells.insert {α : Type} (k : Nat) (v : α) : List (Nat × α) → List (Nat × α)
  | [] => [(k, v)]
  | c :: cs => if k < c.1 then (k, v) :: c :: cs else c :: Cells.insert k v cs

/-- The list with key `k` holding `v`: no entry where `v` is what an unlisted key reads as. -/
def Cells.write {α : Type} [DecidableEq α] (d : α) (m : List (Nat × α)) (k : Nat) (v : α) : List (Nat × α) :=
  if v = d then Cells.erase m k else Cells.insert k v (Cells.erase m k)

/-- The canonical form. -/
def Cells.wf {α : Type} [DecidableEq α] (d : α) (m : List (Nat × α)) : Bool :=
  decide ((m.map Prod.fst).Pairwise (· < ·)) && m.all (fun c => c.2 != d)

/-- Every key is below `n`. -/
def Cells.below {α : Type} (n : Nat) (m : List (Nat × α)) : Bool := m.all (fun c => decide (c.1 < n))

/-- The word in RAM cell `a` (R52). -/
def Memory.read (m : Memory) (a : Nat) : Word := Cells.read Memory.unlisted m a

/-- RAM with cell `a` holding `v` and no other cell changed (R53). -/
def Memory.write (m : Memory) (a : Nat) (v : Word) : Memory := Cells.write Memory.unlisted m a v

/-- RAM is in its canonical form. -/
def Memory.wf (m : Memory) : Bool := Cells.wf Memory.unlisted m

end Sys2Proof.Machine
end

