-- ==== Sys2Proof/Machine/Ops.lean ====
section
/-! DEFINITION. The named operations over registers, program counter, RAM, keyboard and program store, and raising an
exception (R8, R185). -/

namespace Sys2Proof.Machine

/-! ## Registers and program counter -/

/-- `x[i]` (R8). No register is hardwired (R22). -/
def State.getReg (s : State) (r : RegNum) : Word := s.regs[r]

/-- `x[i] <- v` (R8). -/
def State.setReg (s : State) (r : RegNum) (v : Word) : State := { s with regs := s.regs.set r v }

/-- `pc <- target` (R8). -/
def State.setPc (s : State) (target : Nat) : State := { s with pc := target }

/-- `pc <- pc + 1`, which does not wrap (R26, R27). -/
def State.advance (s : State) : State := { s with pc := s.pc + 1 }

/-- `status <- v` (R32). -/
def State.setStatus (s : State) (v : Status) : State := { s with status := v }

/-- The state with its GPU unit replaced. -/
def State.setGpu (s : State) (g : Gpu) : State := { s with gpu := some g }

/-! ## RAM -/

/-- `MemRead(addr, 1)` (R52). -/
def State.memRead (s : State) (a : Word) : Except Exception Word :=
  if a.toNat < s.ramSize then .ok (s.ram.read a.toNat) else .error (.memRangeFault a)

/-- `MemWrite(addr, 1, v)` (R53). -/
def State.memWrite (s : State) (a : Word) (v : Word) : Except Exception State :=
  if a.toNat < s.ramSize then .ok { s with ram := s.ram.write a.toNat v } else .error (.memRangeFault a)

/-! ## Keyboard -/

/-- `KeyNext()`: the next character code and the state without it; `none` while there is none (R150). -/
def State.keyNext (s : State) : Option (KeyCode × State) :=
  match s.keyboard with
  | [] => none
  | c :: cs => some (c, { s with keyboard := cs })

/-! ## Program store -/

/-- `Fetch(a)` (R59). -/
def State.fetch (s : State) (a : Nat) : Except Exception Instr :=
  if s.progBase ≤ a then
    match s.prog[a - s.progBase]? with
    | some i => .ok i
    | none => .error (.fetchFault a)
  else .error (.fetchFault a)

/-! ## Exceptions -/

/-- `raise e` (R185): nothing is written, `pc` stays, and the status becomes `Faulted(e)`. There is no handler and no
return from an exception (R190). -/
def raise (e : Exception) (s : State) : Result := .next (s.setStatus (.faulted e))

/-- The end of an instruction begun in `s`: its next state, or the exception it raised, taken in `s`. -/
def complete (s : State) : Except Exception State → Result
  | .ok t => .next t
  | .error e => raise e s

end Sys2Proof.Machine
end

