-- ==== Sys2Proof/Machine/Operands.lean ====
section
/-! DEFINITION. How an operand is evaluated (R76, R77). An S, an A and a T operand are evaluated the same way (R73); a RAM
address is the word itself, with no displacement and no update of a register (R51). -/

namespace Sys2Proof.Machine

/-- `val(op)`: the register's word, or the immediate (R76). -/
def val (op : Operand) (s : State) : Word :=
  match op with
  | .reg n => s.getReg n
  | .imm v => v

/-- `regof(op)`: the register number; an immediate raises OperandTypeError (R77, R182). -/
def regof (op : Operand) : Except Exception RegNum :=
  match op with
  | .reg n => .ok n
  | .imm _ => .error .operandTypeError

end Sys2Proof.Machine
end

