-- ==== Sys2Proof/Machine/AluInstrs.lean ====
section
/-! DEFINITION. The ALU instructions: ADD, SUB, MULT, DIV (41_arithmetic.md), SHL, SHR, SHLR (42_shift_rotate.md), AND, OR,
XOR, NOT (43_bitwise.md). All but NOT write R0; MULT and DIV also write R1 (R117). -/

namespace Sys2Proof.Machine

/-- The instructions of one result: both operands are read, then R0 is written (R9, R21). -/
def aluToR0 (f : Word → Word → Word) (a b : Operand) (s : State) : Result :=
  .next (s.setReg 0 (f (val a s) (val b s))).advance

/-- A primary result in R0 and a secondary one in R1 (R21). -/
def setAluPair (s : State) (primary secondary : Word) : State := (s.setReg 0 primary).setReg 1 secondary

/-- ADD (R110). -/
def execAdd (a b : Operand) (s : State) : Result := aluToR0 addWord a b s

/-- SUB (R111). -/
def execSub (a b : Operand) (s : State) : Result := aluToR0 subWord a b s

/-- MULT (R112). -/
def execMult (a b : Operand) (s : State) : Result :=
  .next (setAluPair s (productLow (val a s) (val b s)) (productHigh (val a s) (val b s))).advance

/-- DIV (R113): a zero divisor raises DivideByZero, whatever the dividend (R181). -/
def execDiv (a b : Operand) (s : State) : Result :=
  if val b s = 0 then raise .divideByZero s
  else .next (setAluPair s (quotient (val a s) (val b s)) (remainder (val a s) (val b s))).advance

/-- SHL (R120). -/
def execShl (a b : Operand) (s : State) : Result := aluToR0 shiftLeft a b s

/-- SHR (R121). -/
def execShr (a b : Operand) (s : State) : Result := aluToR0 shiftRight a b s

/-- SHLR (R122). -/
def execShlr (a b : Operand) (s : State) : Result := aluToR0 rotateLeft a b s

/-- AND (R130). -/
def execAnd (a b : Operand) (s : State) : Result := aluToR0 andWord a b s

/-- OR (R131). -/
def execOr (a b : Operand) (s : State) : Result := aluToR0 orWord a b s

/-- XOR (R132). -/
def execXor (a b : Operand) (s : State) : Result := aluToR0 xorWord a b s

/-- NOT (R133): back into its own register, not into R0. -/
def execNot (a : Operand) (s : State) : Result :=
  complete s ((regof a).map fun n => (s.setReg n (notWord (s.getReg n))).advance)

end Sys2Proof.Machine
end

