-- ==== Sys2Proof/Machine/Flags.lean ====
section
/-! DEFINITION. The machine has no flags and no condition codes (R33): no instruction records a carry, a zero, a sign or an
overflow. What a conditional jump tests is its own operands, and these are the tests. -/

namespace Sys2Proof.Machine

/-- What JZ tests, on all 16 bits (R142); JNZ tests its negation (R143). -/
def isZeroWord (c : Word) : Bool := c == 0

/-- What JBT tests: strictly greater as unsigned integers 0 to 65535 (R144). -/
def isGreater (a b : Word) : Bool := decide (b.toNat < a.toNat)

/-- The "sign bit (0x8000)" (R6), which software tests after SUB (R111). No instruction tests it. -/
def signBit (w : Word) : Bool := w.getLsbD 15

end Sys2Proof.Machine
end

