-- ==== Sys2Proof/Machine/ControlInstrs.lean ====
section
/-! DEFINITION. JMP, JAL, JZ, JNZ, JBT (44_control_flow.md). A jump never faults on its target; the fetch of the next step
does (R145). -/

namespace Sys2Proof.Machine

/-- The link register, written by JAL (R21). -/
def linkReg : RegNum := 2

/-- A conditional jump: to the target, or to the next instruction (R142 to R144). -/
def jumpIf (taken : Bool) (target : Operand) (s : State) : Result :=
  .next (if taken then s.setPc (val target s).toNat else s.advance)

/-- JMP (R140). -/
def execJmp (target : Operand) (s : State) : Result := .next (s.setPc (val target s).toNat)

/-- JAL (R141): the link value wraps (R27). The form with the register operand 2 is refused (R84 g, log 13). -/
def execJal (target : Operand) (s : State) : Result :=
  if target = .reg linkReg then .refused .jalLinkOperand
  else .next ((s.setReg linkReg (u16 ((s.pc + 1 : Nat) : Int))).setPc (val target s).toNat)

/-- JZ (R142). -/
def execJz (target cond : Operand) (s : State) : Result := jumpIf (isZeroWord (val cond s)) target s

/-- JNZ (R143). -/
def execJnz (target cond : Operand) (s : State) : Result := jumpIf (!isZeroWord (val cond s)) target s

/-- JBT (R144). -/
def execJbt (target x y : Operand) (s : State) : Result := jumpIf (isGreater (val x s) (val y s)) target s

end Sys2Proof.Machine
end

