-- ==== Sys2Proof/Machine/Pixels.lean ====
section
/-! DEFINITION. Pixels of a buffer: reading one, making a buffer from its pixels, and the effects of the drawing
instructions on a buffer (R36, R163 to R165, R170). -/

namespace Sys2Proof.Machine

/-- A vector of 32 entries from a function. -/
def tabulate {α : Type} (f : Fin 32 → α) : Vector α 32 := Vector.mk (List.ofFn f).toArray (by simp)

/-- The buffer whose pixel (x, y) is `f x y`. -/
def Buffer.ofPixels (f : Coord → Coord → Bool) : Buffer := tabulate fun y => tabulate fun x => f x y

/-- `E[x, y]`: x is the column, growing rightward, and y the row, growing downward (R36). -/
def Buffer.pixel (e : Buffer) (x y : Coord) : Bool := e[y][x]

/-- The pixel at integer coordinates, 0 outside the buffer (R170). -/
def Buffer.pixelAt (e : Buffer) (x y : Int) : Bool :=
  if h : (0 ≤ x ∧ x ≤ 31) ∧ (0 ≤ y ∧ y ≤ 31) then Buffer.pixel e ⟨x.toNat, by omega⟩ ⟨y.toNat, by omega⟩ else false

/-- A rectangle: its corner of smallest coordinates and its size (R164). -/
structure Rect where
  x : Nat
  y : Nat
  width : Nat
  height : Nat
  deriving DecidableEq, Repr

/-- `x <= px < x + width` and `y <= py < y + height` (R164). -/
def Rect.contains (r : Rect) (px py : Coord) : Bool :=
  decide ((r.x ≤ px.val ∧ px.val < r.x + r.width) ∧ (r.y ≤ py.val ∧ py.val < r.y + r.height))

/-- Every pixel of the rectangle set to `v`, the others kept (R164, R165). -/
def Buffer.fill (e : Buffer) (r : Rect) (v : Bool) : Buffer :=
  Buffer.ofPixels fun x y => if r.contains x y then v else Buffer.pixel e x y

/-- Every pixel of LINE set to 1, the others kept (R163). -/
def Buffer.drawLine (e : Buffer) (x1 y1 x2 y2 : Coord) : Buffer :=
  Buffer.ofPixels fun x y => if Config.line x1 y1 x2 y2 x y then true else Buffer.pixel e x y

/-- The buffer moved by (dx, dy): what passes the edge is discarded and vacated pixels are 0 (R170). -/
def Buffer.scroll (e : Buffer) (dx dy : Int) : Buffer :=
  Buffer.ofPixels fun x y => Buffer.pixelAt e ((x.val : Int) - dx) ((y.val : Int) - dy)

/-- The pixel at column c and row r of a sprite: bit `14 - (5*r + c)` (R37). -/
def spritePixel (d : SpriteData) (c : Fin 5) (r : Fin 3) : Bool := d.getLsbD (14 - (5 * r.val + c.val))

end Sys2Proof.Machine
end

