-- ==== Sys2Proof/Machine/GpuUnit.lean ====
section
/-! DEFINITION. The GPU unit's operations: its buffers and slots (R36 to R39), the operand ranges (R162), and the one
shape of all eight GPU instructions (R160, R161). -/

namespace Sys2Proof.Machine

/-- E, the edit buffer (R39). -/
def Gpu.editBuffer (g : Gpu) : Buffer := g.buf[g.edit]

/-- The buffer shown (R171): an output a host reads. -/
def Gpu.display (g : Gpu) : Buffer := g.buf[g.disp]

/-- The unit with its edit buffer replaced; all drawing goes there (R161). -/
def Gpu.setEditBuffer (g : Gpu) (e : Buffer) : Gpu := { g with buf := g.buf.set g.edit e }

/-- `sprite[s]` (R37). -/
def Gpu.spriteSlot (g : Gpu) (i : Fin 32) : SpriteData := g.sprite[i]

/-- `sprite[s] <- v` (R166). -/
def Gpu.setSprite (g : Gpu) (i : Fin 32) (d : SpriteData) : Gpu := { g with sprite := g.sprite.set i d }

/-- `text[s]` (R38). -/
def Gpu.textSlot (g : Gpu) (i : Nat) : CharCode := Cells.read Gpu.textUnlisted g.text i

/-- `text[s] <- c` (R168). -/
def Gpu.setText (g : Gpu) (i : Fin 16384) (c : CharCode) : Gpu :=
  { g with text := Cells.write Gpu.textUnlisted g.text i.val c }

/-- Operand `position` in the range 0 to n - 1, or GpuRangeFault (R162). -/
def gpuIndex (position n : Nat) (w : Word) : Except Exception (Fin n) :=
  if h : w.toNat < n then .ok ⟨w.toNat, h⟩ else .error (.gpuRangeFault position)

/-- Operand `position` in the range 1 to 32 of a width or a height, or GpuRangeFault (R162). -/
def gpuExtent (position : Nat) (w : Word) : Except Exception Nat :=
  if 1 ≤ w.toNat ∧ w.toNat ≤ 32 then .ok w.toNat else .error (.gpuRangeFault position)

/-- The rectangle of four operands: each range in turn, then the overrun, 3 for the width and else 4 (R162, R188). -/
def gpuRect (x y width height : Word) : Except Exception Rect := do
  let a ← gpuIndex 1 32 x
  let b ← gpuIndex 2 32 y
  let w ← gpuExtent 3 width
  let h ← gpuExtent 4 height
  if 32 < a.val + w then .error (.gpuRangeFault 3)
  else if 32 < b.val + h then .error (.gpuRangeFault 4)
  else pure { x := a.val, y := b.val, width := w, height := h }

/-- Every GPU instruction (R160, R161): with no GPU attached only `pc` advances; with one, `f` gives the unit's new state
or the exception. -/
def gpuStep (s : State) (f : Gpu → Except Exception Gpu) : Result :=
  match s.gpu with
  | none => .next s.advance
  | some g => complete s ((f g).map fun g' => (s.setGpu g').advance)

end Sys2Proof.Machine
end

