-- ==== Sys2Proof/Machine/GpuInstrs.lean ====
section
/-! DEFINITION. DRLINE, DRGRD, CLRGRID, LDSPR, DRSPR, LDTXT, DRTXT, SCRLBFR (46_gpu.md). -/

namespace Sys2Proof.Machine

/-- DRLINE (R163). -/
def execDrline (x1 y1 x2 y2 : Operand) (s : State) : Result :=
  gpuStep s fun g => do
    let a ← gpuIndex 1 32 (val x1 s)
    let b ← gpuIndex 2 32 (val y1 s)
    let c ← gpuIndex 3 32 (val x2 s)
    let d ← gpuIndex 4 32 (val y2 s)
    pure (g.setEditBuffer (Buffer.drawLine g.editBuffer a b c d))

/-- DRGRD (R164). -/
def execDrgrd (x y width height : Operand) (s : State) : Result :=
  gpuStep s fun g => do
    let r ← gpuRect (val x s) (val y s) (val width s) (val height s)
    pure (g.setEditBuffer (Buffer.fill g.editBuffer r true))

/-- CLRGRID (R165). -/
def execClrgrid (x y width height : Operand) (s : State) : Result :=
  gpuStep s fun g => do
    let r ← gpuRect (val x s) (val y s) (val width s) (val height s)
    pure (g.setEditBuffer (Buffer.fill g.editBuffer r false))

/-- LDSPR (R166). -/
def execLdspr (id data : Operand) (s : State) : Result :=
  gpuStep s fun g => do
    let i ← gpuIndex 1 32 (val id s)
    let d ← gpuIndex 2 0x8000 (val data s)
    pure (g.setSprite i (BitVec.ofNat 15 d.val))

/-- DRSPR (R167). -/
def execDrspr (id x y : Operand) (s : State) : Result :=
  gpuStep s fun g => do
    let i ← gpuIndex 1 32 (val id s)
    let a ← gpuIndex 2 32 (val x s)
    let b ← gpuIndex 3 32 (val y s)
    pure (g.setEditBuffer (Config.blit (.sprite (g.spriteSlot i)) g.editBuffer a b))

/-- LDTXT (R168). -/
def execLdtxt (id charCode : Operand) (s : State) : Result :=
  gpuStep s fun g => do
    let i ← gpuIndex 1 16384 (val id s)
    let c ← gpuIndex 2 43 (val charCode s)
    pure (g.setText i c)

/-- DRTXT (R169). -/
def execDrtxt (id x y : Operand) (s : State) : Result :=
  gpuStep s fun g => do
    let i ← gpuIndex 1 16384 (val id s)
    let a ← gpuIndex 2 32 (val x s)
    let b ← gpuIndex 3 32 (val y s)
    pure (g.setEditBuffer (Config.blit (.text (Config.font (g.textSlot i.val))) g.editBuffer a b))

/-- SCRLBFR (R170): the offsets are read as two's complement and have no range. -/
def execScrlbfr (offx offy : Operand) (s : State) : Result :=
  gpuStep s fun g =>
    .ok (g.setEditBuffer (Buffer.scroll g.editBuffer (s16 (val offx s)) (s16 (val offy s))))

end Sys2Proof.Machine
end

