-- ==== Sys2Proof/Machine/MemoryInstrs.lean ====
section
/-! DEFINITION. LOAD, READ, MVR, MVM (40_memory_instructions.md). LOAD writes RAM and READ reads it (R12). -/

namespace Sys2Proof.Machine

/-- LOAD (R100). -/
def execLoad (src dstAddr : Operand) (s : State) : Result :=
  complete s ((s.memWrite (val dstAddr s) (val src s)).map State.advance)

/-- READ (R101); the operand type is checked before the address (R188). -/
def execRead (srcAddr dst : Operand) (s : State) : Result :=
  complete s (do
    let d ← regof dst
    let v ← s.memRead (val srcAddr s)
    pure (s.setReg d v).advance)

/-- MVR (R102). -/
def execMvr (src dst : Operand) (s : State) : Result :=
  complete s ((regof dst).map fun d => (s.setReg d (val src s)).advance)

/-- MVM (R103): the read before the write (R54). -/
def execMvm (srcAddr dstAddr : Operand) (s : State) : Result :=
  complete s (do
    let v ← s.memRead (val srcAddr s)
    let t ← s.memWrite (val dstAddr s) v
    pure t.advance)

end Sys2Proof.Machine
end

