-- ==== Sys2Proof/Machine/SystemInstrs.lean ====
section
/-! DEFINITION. KEYIN and HALT (45_system.md). -/

namespace Sys2Proof.Machine

/-- KEYIN (R150): the address is checked before waiting; while the keyboard has no character there is no step (R32, U12);
once one has come it is taken and its code written, zero-extended. -/
def execKeyin (addr : Operand) (s : State) : Result :=
  if (val addr s).toNat < s.ramSize then
    match s.keyNext with
    | none => .fault .blocked
    | some (c, t) => complete s ((t.memWrite (val addr s) (zext16 c)).map State.advance)
  else raise (.memRangeFault (val addr s)) s

/-- HALT (R152): `pc` stays at the HALT. -/
def execHalt (s : State) : Result := .next (s.setStatus .halted)

end Sys2Proof.Machine
end

