-- ==== Sys2Proof/Machine/Dispatch.lean ====
section
/-! DEFINITION. One arm per instruction: the one place that says which meaning an instruction has. -/

namespace Sys2Proof.Machine

/-- The effect of one instruction (R82). -/
def exec (i : Instr) (s : State) : Host.Outcome State Fault Refusal :=
  match i with
  | .load src dstAddr => Sys2Proof.Machine.execLoad src dstAddr s
  | .read srcAddr dst => Sys2Proof.Machine.execRead srcAddr dst s
  | .mvr src dst => Sys2Proof.Machine.execMvr src dst s
  | .mvm srcAddr dstAddr => Sys2Proof.Machine.execMvm srcAddr dstAddr s
  | .add a b => Sys2Proof.Machine.execAdd a b s
  | .sub a b => Sys2Proof.Machine.execSub a b s
  | .mult a b => Sys2Proof.Machine.execMult a b s
  | .div a b => Sys2Proof.Machine.execDiv a b s
  | .shl a b => Sys2Proof.Machine.execShl a b s
  | .shr a b => Sys2Proof.Machine.execShr a b s
  | .shlr a b => Sys2Proof.Machine.execShlr a b s
  | .and a b => Sys2Proof.Machine.execAnd a b s
  | .or a b => Sys2Proof.Machine.execOr a b s
  | .xor a b => Sys2Proof.Machine.execXor a b s
  | .not a => Sys2Proof.Machine.execNot a s
  | .jmp target => Sys2Proof.Machine.execJmp target s
  | .jal target => Sys2Proof.Machine.execJal target s
  | .jz target cond => Sys2Proof.Machine.execJz target cond s
  | .jnz target cond => Sys2Proof.Machine.execJnz target cond s
  | .jbt target x y => Sys2Proof.Machine.execJbt target x y s
  | .keyin addr => Sys2Proof.Machine.execKeyin addr s
  | .halt => Sys2Proof.Machine.execHalt s
  | .drline x1 y1 x2 y2 => Sys2Proof.Machine.execDrline x1 y1 x2 y2 s
  | .drgrd x y width height => Sys2Proof.Machine.execDrgrd x y width height s
  | .clrgrid x y width height => Sys2Proof.Machine.execClrgrid x y width height s
  | .ldspr id data => Sys2Proof.Machine.execLdspr id data s
  | .drspr id x y => Sys2Proof.Machine.execDrspr id x y s
  | .ldtxt id charCode => Sys2Proof.Machine.execLdtxt id charCode s
  | .drtxt id x y => Sys2Proof.Machine.execDrtxt id x y s
  | .scrlbfr offx offy => Sys2Proof.Machine.execScrlbfr offx offy s

end Sys2Proof.Machine
end

