-- ==== Sys2Proof/Decode.lean ====
section
/-! DEFINITION. The decoder: a parser from one line of assembly text to a term (R70, R89), total on any characters and refusing
by name what R84 refuses at load time; then the encoder, which writes a term as assembly text. The source defines no
instruction bits, so the bits of an instruction are the character codes of its text (log 1). -/

namespace Sys2Proof

/-- Why the text of an instruction or of a program is refused at load time (R84). Every one is safe: the model says
nothing of a refused program. -/
inductive LoadError where
  /-- R84 a, R86: the first word of the line is none of the 30 mnemonics. -/
  | unknownMnemonic
  /-- R84 b: the operand count is not the format's. -/
  | operandCount
  /-- R84 c: a register number above 31. -/
  | registerRange
  /-- R84 d, R78 c: an immediate above 65535 or below -32768. -/
  | immediateRange
  /-- R84 d, R78 b: a negative immediate outside SCRLBFR. -/
  | negativeImmediate
  /-- An `i:` that no integer literal of R78 follows (log 10). -/
  | badLiteral
  /-- R84 e: a label that names no instruction. -/
  | undefinedLabel
  /-- A label in a value or RAM-address position (93_implementation_defined.md U23). -/
  | labelAsValue
  /-- R84 f, R87: the operand name `GPU`. -/
  | gpuOperand
  /-- R84 g, R141: `JAL` with the register operand 2. -/
  | jalLinkOperand
  /-- An operand that is no register number, immediate or label (log 10). -/
  | badOperand
  /-- R27: the program does not fit below instruction address 65536. -/
  | programTooLong
  /-- A label that marks two places (log 11). -/
  | labelDefinedTwice
  deriving DecidableEq, Repr

/-! ## Characters and numbers -/

/-- White space inside a line (R89 shows spaces; log 10). -/
def isBlank (c : Char) : Bool := c == ' ' || c == '\t'

/-- The value of a decimal digit. -/
def decVal (c : Char) : Option Nat :=
  if 48 ≤ c.toNat ∧ c.toNat ≤ 57 then some (c.toNat - 48) else none

/-- The value of a hexadecimal digit, `0` to `9`, `A` to `F` or `a` to `f` (R78; lower case: log 10). -/
def hexVal (c : Char) : Option Nat :=
  if 48 ≤ c.toNat ∧ c.toNat ≤ 57 then some (c.toNat - 48)
  else if 65 ≤ c.toNat ∧ c.toNat ≤ 70 then some (c.toNat - 55)
  else if 97 ≤ c.toNat ∧ c.toNat ≤ 102 then some (c.toNat - 87)
  else none

/-- The digits of a number after those already read into `acc`. -/
def readDigits (base : Nat) (val : Char → Option Nat) (acc : Nat) : Text → Option Nat
  | [] => some acc
  | c :: cs =>
    match val c with
    | some d => readDigits base val (acc * base + d) cs
    | none => none

/-- A number of at least one digit. -/
def readNat (base : Nat) (val : Char → Option Nat) : Text → Option Nat
  | [] => none
  | c :: cs => readDigits base val 0 (c :: cs)

/-- The integer literal after `i:` (R78): decimal, `0x` hexadecimal, or negative decimal. -/
def readLiteral : Text → Option Int
  | '-' :: ds => (readNat 10 decVal ds).map (fun n : Nat => -(n : Int))
  | '0' :: 'x' :: hs => (readNat 16 hexVal hs).map (fun n : Nat => (n : Int))
  | ds => (readNat 10 decVal ds).map (fun n : Nat => (n : Int))

/-- The word of an admitted literal (R78): 0 to 65535 everywhere, -32768 to -1 where negatives are admitted. -/
def admitImmediate (negativesAdmitted : Bool) (n : Int) : Except LoadError Word :=
  if 0 ≤ n ∧ n ≤ 65535 then .ok (BitVec.ofInt 16 n)
  else if -32768 ≤ n ∧ n ≤ -1 then
    if negativesAdmitted then .ok (BitVec.ofInt 16 n) else .error .negativeImmediate
  else .error .immediateRange

/-! ## Splitting a line -/

/-- A line without its comment, which runs from `//` to the end (R89). -/
def stripComment : Text → Text
  | [] => []
  | [c] => [c]
  | c :: d :: cs => if c = '/' ∧ d = '/' then [] else c :: stripComment (d :: cs)

/-- A text without the white space at its two ends. -/
def trim (t : Text) : Text := ((t.dropWhile isBlank).reverse.dropWhile isBlank).reverse

/-- The pieces of a text between occurrences of `sep`; always at least one piece. -/
def splitOn (sep : Char) : Text → List Text
  | [] => [[]]
  | c :: cs =>
    if c = sep then [] :: splitOn sep cs
    else
      match splitOn sep cs with
      | [] => [[c]]
      | piece :: pieces => (c :: piece) :: pieces

/-- The operand texts of a line after its mnemonic: separated by commas, none if there is nothing (R89). -/
def operandFields (t : Text) : List Text :=
  if t = [] then [] else (splitOn ',' t).map trim

/-! ## Names -/

/-- The upper-case spelling of a mnemonic (R82, R86). -/
def Mnemonic.name : Mnemonic → Text
  | .load => ['L', 'O', 'A', 'D']
  | .read => ['R', 'E', 'A', 'D']
  | .mvr => ['M', 'V', 'R']
  | .mvm => ['M', 'V', 'M']
  | .add => ['A', 'D', 'D']
  | .sub => ['S', 'U', 'B']
  | .mult => ['M', 'U', 'L', 'T']
  | .div => ['D', 'I', 'V']
  | .shl => ['S', 'H', 'L']
  | .shr => ['S', 'H', 'R']
  | .shlr => ['S', 'H', 'L', 'R']
  | .and => ['A', 'N', 'D']
  | .or => ['O', 'R']
  | .xor => ['X', 'O', 'R']
  | .not => ['N', 'O', 'T']
  | .jmp => ['J', 'M', 'P']
  | .jal => ['J', 'A', 'L']
  | .jz => ['J', 'Z']
  | .jnz => ['J', 'N', 'Z']
  | .jbt => ['J', 'B', 'T']
  | .keyin => ['K', 'E', 'Y', 'I', 'N']
  | .halt => ['H', 'A', 'L', 'T']
  | .drline => ['D', 'R', 'L', 'I', 'N', 'E']
  | .drgrd => ['D', 'R', 'G', 'R', 'D']
  | .clrgrid => ['C', 'L', 'R', 'G', 'R', 'I', 'D']
  | .ldspr => ['L', 'D', 'S', 'P', 'R']
  | .drspr => ['D', 'R', 'S', 'P', 'R']
  | .ldtxt => ['L', 'D', 'T', 'X', 'T']
  | .drtxt => ['D', 'R', 'T', 'X', 'T']
  | .scrlbfr => ['S', 'C', 'R', 'L', 'B', 'F', 'R']

/-- The mnemonic a word spells (R86: upper case only). -/
def Mnemonic.ofName (t : Text) : Option Mnemonic := Mnemonic.all.find? (fun m => m.name == t)

/-- A letter or an underscore. -/
def isIdentStart (c : Char) : Bool :=
  c == '_' || (decide (65 ≤ c.toNat) && decide (c.toNat ≤ 90)) || (decide (97 ≤ c.toNat) && decide (c.toNat ≤ 122))

/-- A letter, an underscore or a digit. -/
def isIdentChar (c : Char) : Bool := isIdentStart c || (decVal c).isSome

/-- A label's name (R89 shows lower-case letters and underscores; capitals and digits: DESIGN CHOICE, log 10). -/
def isIdent : Text → Bool
  | [] => false
  | c :: cs => isIdentStart c && cs.all isIdentChar

/-- The instruction addresses the labels of a program name (R79). -/
abbrev Symbols := List (Text × Nat)

/-- The address a label names, if it names one. Names are compared letter for letter, capitals apart from small letters
(`Loop` and `loop` are two labels): DESIGN CHOICE, log 10; the source's grammar lacks letter case (N10). -/
def Symbols.find (syms : Symbols) (name : Text) : Option Nat :=
  (List.find? (fun p => p.1 == name) syms).map Prod.snd

/-! ## Operands and instructions -/

/-- A label operand (R79): an immediate after load, in a T position and in an R position (where R77 has it rejected
at runtime); refused in S and A positions (U23). -/
def labelOperand (syms : Symbols) (k : Kind) (name : Text) : Except LoadError Operand :=
  match k with
  | .s => .error .labelAsValue
  | .a => .error .labelAsValue
  | .t =>
    match syms.find name with
    | some addr => .ok (.imm (BitVec.ofNat 16 addr))
    | none => .error .undefinedLabel
  | .r =>
    match syms.find name with
    | some addr => .ok (.imm (BitVec.ofNat 16 addr))
    | none => .error .undefinedLabel

/-- An operand that is no immediate: a bare number is a register (R72), in decimal
only (log 10), `GPU` is refused (R87), an identifier is a label. -/
def bareOperand (syms : Symbols) (k : Kind) (t : Text) : Except LoadError Operand :=
  match readNat 10 decVal t with
  | some n => if h : n < 32 then .ok (.reg ⟨n, h⟩) else .error .registerRange
  | none =>
    if t = ['G', 'P', 'U'] then .error .gpuOperand
    else if isIdent t then labelOperand syms k t
    else .error .badOperand

/-- One operand text read in a position of kind `k` of the mnemonic `m` (R72, R73, R78). -/
def parseOperand (syms : Symbols) (m : Mnemonic) (k : Kind) : Text → Except LoadError Operand
  | 'i' :: ':' :: lit =>
    match readLiteral lit with
    | some n => (admitImmediate (m == .scrlbfr) n).map .imm
    | none => .error .badLiteral
  | t => bareOperand syms k t

/-- The operands of a line, one text for each kind of the format. -/
def parseOperands (syms : Symbols) (m : Mnemonic) : List Kind → List Text → Except LoadError (List Operand)
  | [], [] => .ok []
  | k :: ks, t :: ts =>
    match parseOperand syms m k t with
    | .error e => .error e
    | .ok op =>
      match parseOperands syms m ks ts with
      | .error e => .error e
      | .ok ops => .ok (op :: ops)
  | [], _ :: _ => .error .operandCount
  | _ :: _, [] => .error .operandCount

/-- The term of a mnemonic and an operand list; `none` unless the count is the format's. -/
def Instr.ofTerm : Mnemonic → List Operand → Option Instr
  | .load, [x, y] => some (.load x y)
  | .read, [x, y] => some (.read x y)
  | .mvr, [x, y] => some (.mvr x y)
  | .mvm, [x, y] => some (.mvm x y)
  | .add, [x, y] => some (.add x y)
  | .sub, [x, y] => some (.sub x y)
  | .mult, [x, y] => some (.mult x y)
  | .div, [x, y] => some (.div x y)
  | .shl, [x, y] => some (.shl x y)
  | .shr, [x, y] => some (.shr x y)
  | .shlr, [x, y] => some (.shlr x y)
  | .and, [x, y] => some (.and x y)
  | .or, [x, y] => some (.or x y)
  | .xor, [x, y] => some (.xor x y)
  | .not, [x] => some (.not x)
  | .jmp, [x] => some (.jmp x)
  | .jal, [x] => some (.jal x)
  | .jz, [x, y] => some (.jz x y)
  | .jnz, [x, y] => some (.jnz x y)
  | .jbt, [x, y, z] => some (.jbt x y z)
  | .keyin, [x] => some (.keyin x)
  | .halt, [] => some .halt
  | .drline, [x, y, z, w] => some (.drline x y z w)
  | .drgrd, [x, y, z, w] => some (.drgrd x y z w)
  | .clrgrid, [x, y, z, w] => some (.clrgrid x y z w)
  | .ldspr, [x, y] => some (.ldspr x y)
  | .drspr, [x, y, z] => some (.drspr x y z)
  | .ldtxt, [x, y] => some (.ldtxt x y)
  | .drtxt, [x, y, z] => some (.drtxt x y z)
  | .scrlbfr, [x, y] => some (.scrlbfr x y)
  | _, _ => none

/-- The term of a mnemonic and its operand texts, checked (R84). -/
def assembleTerm (syms : Symbols) (m : Mnemonic) (fields : List Text) : Except LoadError Instr :=
  match parseOperands syms m m.format.kinds fields with
  | .error e => .error e
  | .ok ops =>
    match Instr.ofTerm m ops with
    | none => .error .operandCount
    | some i => if i.wf then .ok i else .error .jalLinkOperand

/-- A line without comment and outer white space: what is left to read. -/
def lineBody (t : Text) : Text := trim (stripComment t)

/-- The first word of a line. -/
def lineMnemonic (t : Text) : Text := (lineBody t).takeWhile (fun c => !isBlank c)

/-- What follows the first word of a line. -/
def lineOperands (t : Text) : List Text := operandFields (trim ((lineBody t).dropWhile (fun c => !isBlank c)))

/-- One line of assembly text as a term, its labels resolved by `syms` (R70, R79, R84, R89). -/
def decodeLine (syms : Symbols) (t : Text) : Except LoadError Instr :=
  match Mnemonic.ofName (lineMnemonic t) with
  | none => .error .unknownMnemonic
  | some m => assembleTerm syms m (lineOperands t)

/-- The decoder: one line of assembly text, no label defined. -/
def decode (t : Text) : Except LoadError Instr := decodeLine [] t

/-! ## The encoder -/

/-- The hexadecimal digit of 0 to 15, in upper case as the source writes it. -/
def hexDigit (n : Nat) : Char := if n < 10 then Char.ofNat (48 + n) else Char.ofNat (55 + n)

/-- A register number in decimal, one or two digits (R89). -/
def encodeReg (n : RegNum) : Text :=
  if n.val < 10 then [hexDigit n.val] else [hexDigit (n.val / 10), hexDigit (n.val % 10)]

/-- A word as `0x` and four hexadecimal digits, a spelling R78 shows. -/
def encodeWord (v : Word) : Text :=
  ['0', 'x', hexDigit (v.toNat / 4096), hexDigit (v.toNat / 256 % 16), hexDigit (v.toNat / 16 % 16),
    hexDigit (v.toNat % 16)]

/-- An operand's text: a bare number or `i:` and a literal (R72, R89). -/
def encodeOperand : Operand → Text
  | .reg n => encodeReg n
  | .imm v => 'i' :: ':' :: encodeWord v

/-- Operand texts with a comma and a space between them (R89). -/
def joinOperands : List Text → Text
  | [] => []
  | [t] => t
  | t :: ts => t ++ ',' :: ' ' :: joinOperands ts

/-- A term as assembly text: the mnemonic, two spaces, the operands; the mnemonic alone where there is none (R89). -/
def encode (i : Instr) : Text :=
  match i.operands with
  | [] => i.mnemonic.name
  | op :: ops => i.mnemonic.name ++ ' ' :: ' ' :: joinOperands ((op :: ops).map encodeOperand)

/-! ## Text as bits (log 1) -/

/-- The characters of `n` bytes, the first the least significant. -/
def textOfBits : Nat → Nat → Text
  | 0, _ => []
  | n + 1, w => Char.ofNat (w % 256) :: textOfBits n (w / 256)

/-- The bits of a text of 8-bit characters, the first character the least significant. -/
def bitsOfText : Text → Nat
  | [] => 0
  | c :: cs => c.toNat + 256 * bitsOfText cs

/-- The instruction read from an instruction of `nbits` bits `w`: the bytes are the characters of its text, and a zero
byte ends it (log 1). -/
def decodeTableWord (nbits w : Nat) : Option Instr :=
  match decode ((textOfBits (nbits / 8) w).takeWhile (fun c => c != Char.ofNat 0)) with
  | .ok i => some i
  | .error _ => none

end Sys2Proof
end

