-- ==== Sys2Proof/Machine/Loader.lean ====
section
/-! DEFINITION. Load time (R79, R201): assembly lines become the program store, labels become addresses, and what R84 names is
refused. How a label is DEFINED in the text is not in the source, so a line comes with the labels that mark it. -/

namespace Sys2Proof.Machine

/-- A line of a program: the labels that mark it, and its assembly text. -/
structure SourceLine where
  labels : List Text
  text : Text
  deriving DecidableEq, Repr

/-- A line that holds an instruction; a blank line or a comment alone holds none (log 11). -/
def SourceLine.hasInstr (l : SourceLine) : Bool := !(lineBody l.text).isEmpty

/-- The instruction address each label marks: that of the next instruction, counted from `addr` (R31, R79). -/
def symbolsFrom (addr : Nat) : List SourceLine → Symbols
  | [] => []
  | l :: ls => l.labels.map (fun name => (name, addr)) ++ symbolsFrom (if l.hasInstr then addr + 1 else addr) ls

/-- The terms of the lines that hold an instruction, in order (R201). -/
def termsOf (syms : Symbols) : List SourceLine → Except LoadError (List Instr)
  | [] => .ok []
  | l :: ls =>
    if l.hasInstr then
      match decodeLine syms l.text with
      | .error e => .error e
      | .ok i =>
        match termsOf syms ls with
        | .error e => .error e
        | .ok is => .ok (i :: is)
    else termsOf syms ls

/-- A whole program at `base` (R201): it must fit (R27), each label must mark one place (log 11) and an instruction
(R84 e), and every line must be accepted. -/
def assemble (base : Nat) (lines : List SourceLine) : Except LoadError (List Instr) :=
  match termsOf (symbolsFrom base lines) lines with
  | .error e => .error e
  | .ok prog =>
    if !Program.fits base prog then .error .programTooLong
    else if ¬ ((symbolsFrom base lines).map Prod.fst).Nodup then .error .labelDefinedTwice
    else if (symbolsFrom base lines).any (fun p => decide (base + prog.length ≤ p.2)) then .error .undefinedLabel
    else .ok prog

/-- The start of a run (R200, R41): the program is in the store, `pc = PROG_BASE`, `status = Running`, and everything else
is the launch value it has in `s`. -/
def State.load (s : State) (base : Nat) (prog : List Instr) : State :=
  { s with progBase := base, prog := prog, pc := base, status := .running }

/-- The start of a run of assembly lines, or why they are refused. -/
def State.loadLines (s : State) (base : Nat) (lines : List SourceLine) : Except LoadError State :=
  (assemble base lines).map (s.load base)

/-- The running state in which the instruction at `pc` is `i`: put into the program store at `pc`, or, where `pc` is not an
address of the program, a program of that one instruction (log 12). -/
def State.placeAtPc (s : State) (i : Instr) : State :=
  if s.progBase ≤ s.pc ∧ s.pc < s.progBase + s.prog.length then
    { s with prog := s.prog.set (s.pc - s.progBase) i, status := .running }
  else { s with progBase := s.pc, prog := [i], status := .running }

end Sys2Proof.Machine
end

