-- ==== Sys2Proof/Machine/Step.lean ====
section
/-! DEFINITION. One step of the machine (R59), and the load of one instruction for the host's questions. -/

namespace Sys2Proof.Machine

/-- One step: a running machine fetches at `pc` and executes; a fetch outside the program raises FetchFault (R59, R183). A
halted or faulted machine has no step (R32). -/
def step (s : State) : Host.Outcome State Fault Refusal :=
  match s.status with
  | .running =>
    match s.fetch s.pc with
    | .ok i => exec i s
    | .error e => raise e s
  | .halted => .fault .halted
  | .faulted e => .fault (.faulted e)

/-- The state with the instruction of `nbits` bits `w` loaded where the next step fetches (log 1, log 12). An
instruction the decoder refuses is refused at load, and nothing is loaded. -/
def State.withFetchWord (s : State) (nbits w : Nat) : State :=
  match decodeTableWord nbits w with
  | some i => s.placeAtPc i
  | none => s

end Sys2Proof.Machine
end

