-- ==== Sys2Proof/Machine/Keyboard.lean ====
section
/-! DEFINITION. The character encoding (R151), and a key press as the outside world makes it (R35, R153). -/

namespace Sys2Proof.Machine

/-- The characters of the encoding, code 0 first (R151). -/
def charset : List Char :=
  ['A', 'B', 'C', 'D', 'E', 'F', 'G', 'H', 'I', 'J', 'K', 'L', 'M', 'N', 'O', 'P', 'Q', 'R', 'S', 'T', 'U', 'V'] ++
  ['W', 'X', 'Y', 'Z', '0', '1', '2', '3', '4', '5', '6', '7', '8', '9', '!', '?', '+', '-', '*', '.', ',']

/-- The character of a code; codes 43 to 63 are assigned to nothing (R151). -/
def codeChar (c : KeyCode) : Option Char := charset[c.toNat]?

/-- The code of a character of the table (R151). What another key does is open (R150). -/
def charCode (c : Char) : Option KeyCode := (charset.findIdx? (· == c)).map (fun k => BitVec.ofNat 6 k)

/-- The keyboard gets one more character code, behind those not yet read (R35). This is the host's event, not a step. -/
def State.press (s : State) (c : KeyCode) : State := { s with keyboard := s.keyboard ++ [c] }

end Sys2Proof.Machine
end

