-- ==== Sys2Proof/Safety.lean ====
section
/-! DEFINITION. The terms claims are stated in: how a run ends, launch states, the invariant of the state, and what an
instruction leaves unchanged. -/

namespace Sys2Proof.Machine

/-! ## How a run stands (R32, R209) -/

/-- The only final state (R32). -/
def State.isFinal (s : State) : Bool := s.status == .halted

/-- A run that has gone wrong (R185). A claim about a program proves that this does not happen. -/
def State.isFaulted (s : State) : Bool :=
  match s.status with
  | .faulted _ => true
  | .running => false
  | .halted => false

/-- The machine waits in KEYIN: it is Running, and "it has no step until the keyboard supplies a character" (R32, R150). A run
that stays so never ends and is not final (R209). -/
def State.Blocked (s : State) : Prop :=
  s.status = .running ∧ s.keyboard = [] ∧
    ∃ addr, s.fetch s.pc = .ok (.keyin addr) ∧ (val addr s).toNat < s.ramSize

/-- A state in which execution may begin (R41, R200): `pc = PROG_BASE` and `status = Running`, all else arbitrary. -/
def State.launched (s : State) : Bool := s.pc == s.progBase && s.status == .running

/-! ## The invariant -/

/-- The text slots are in canonical form and are slots 0 to 16383 (R38). -/
def Gpu.wf (g : Gpu) : Bool := Cells.wf Gpu.textUnlisted g.text && Cells.below 16384 g.text

/-- What every state of a run satisfies: RAM_SIZE in its bounds (R29), a program the loader accepts (R27, R84), `pc` at
most one past the last word (R27), RAM in canonical form with every listed cell below RAM_SIZE (R28), the GPU's text slots
likewise. -/
def State.wf (s : State) : Bool :=
  ramSizeOk s.ramSize && Program.wf s.progBase s.prog && decide (s.pc ≤ 65536) && s.ram.wf &&
    Cells.below s.ramSize s.ram &&
      match s.gpu with
      | none => true
      | some g => g.wf

/-! ## What an instruction leaves unchanged -/

/-- Every register but those named holds what it held. -/
def RegsKept (s t : State) (dests : List RegNum) : Prop := ∀ r, r ∉ dests → t.getReg r = s.getReg r

/-- Every cell of RAM but those named reads as it read. -/
def RamKept (s t : State) (stored : List Nat) : Prop := ∀ a, a ∉ stored → t.ram.read a = s.ram.read a

/-- The parameters of the launch are as they were (R5, R30). -/
def LaunchKept (s t : State) : Prop := t.ramSize = s.ramSize ∧ t.progBase = s.progBase ∧ t.prog = s.prog

/-- Nothing changed but the program counter and the registers named. -/
def OnlyRegs (s t : State) (dests : List RegNum) : Prop :=
  RegsKept s t dests ∧ RamKept s t [] ∧ t.keyboard = s.keyboard ∧ t.gpu = s.gpu ∧ t.status = s.status ∧ LaunchKept s t

/-- Nothing changed but the program counter, the keyboard and the RAM cell at `a`. -/
def OnlyCell (s t : State) (a : Nat) : Prop :=
  RegsKept s t [] ∧ RamKept s t [a] ∧ t.gpu = s.gpu ∧ t.status = s.status ∧ LaunchKept s t

/-- Nothing changed but the program counter and the GPU unit (R40). -/
def OnlyGpu (s t : State) : Prop :=
  RegsKept s t [] ∧ RamKept s t [] ∧ t.keyboard = s.keyboard ∧ t.status = s.status ∧ LaunchKept s t

/-- Of the GPU unit, nothing changed but the edit buffer. -/
def OnlyEditBuffer (g h : Gpu) : Prop :=
  (∀ k : Fin 2, k ≠ g.edit → h.buf[k] = g.buf[k]) ∧ h.sprite = g.sprite ∧ h.text = g.text ∧ h.edit = g.edit ∧
    h.disp = g.disp

/-! ## What an instruction names -/

/-- The register a register-only operand names, as a list. -/
def regList : Operand → List RegNum
  | .reg n => [n]
  | .imm _ => []

/-- The registers an instruction writes: its implicit outputs and its named destination (R21, R22). -/
def destRegs : Instr → List RegNum
  | .load _ _ => []
  | .read _ dst => regList dst
  | .mvr _ dst => regList dst
  | .mvm _ _ => []
  | .add _ _ => [0]
  | .sub _ _ => [0]
  | .mult _ _ => [0, 1]
  | .div _ _ => [0, 1]
  | .shl _ _ => [0]
  | .shr _ _ => [0]
  | .shlr _ _ => [0]
  | .and _ _ => [0]
  | .or _ _ => [0]
  | .xor _ _ => [0]
  | .not a => regList a
  | .jmp _ => []
  | .jal _ => [2]
  | .jz _ _ => []
  | .jnz _ _ => []
  | .jbt _ _ _ => []
  | .keyin _ => []
  | .halt => []
  | .drline _ _ _ _ => []
  | .drgrd _ _ _ _ => []
  | .clrgrid _ _ _ _ => []
  | .ldspr _ _ => []
  | .drspr _ _ _ => []
  | .ldtxt _ _ => []
  | .drtxt _ _ _ => []
  | .scrlbfr _ _ => []

/-- The RAM addresses an instruction stores to (R28): LOAD's, MVM's and KEYIN's destination. -/
def storesTo (i : Instr) (s : State) : List Nat :=
  match i with
  | .load _ dstAddr => [(val dstAddr s).toNat]
  | .read _ _ => []
  | .mvr _ _ => []
  | .mvm _ dstAddr => [(val dstAddr s).toNat]
  | .add _ _ => []
  | .sub _ _ => []
  | .mult _ _ => []
  | .div _ _ => []
  | .shl _ _ => []
  | .shr _ _ => []
  | .shlr _ _ => []
  | .and _ _ => []
  | .or _ _ => []
  | .xor _ _ => []
  | .not _ => []
  | .jmp _ => []
  | .jal _ => []
  | .jz _ _ => []
  | .jnz _ _ => []
  | .jbt _ _ _ => []
  | .keyin addr => [(val addr s).toNat]
  | .halt => []
  | .drline _ _ _ _ => []
  | .drgrd _ _ _ _ => []
  | .clrgrid _ _ _ _ => []
  | .ldspr _ _ => []
  | .drspr _ _ _ => []
  | .ldtxt _ _ => []
  | .drtxt _ _ _ => []
  | .scrlbfr _ _ => []

/-- The eight GPU instructions (R160). -/
def isGpuMnemonic (m : Mnemonic) : Bool :=
  [Mnemonic.drline, .drgrd, .clrgrid, .ldspr, .drspr, .ldtxt, .drtxt, .scrlbfr].contains m

/-- The five instructions that write the program counter (44_control_flow.md). -/
def isJumpMnemonic (m : Mnemonic) : Bool := [Mnemonic.jmp, .jal, .jz, .jnz, .jbt].contains m

/-! ## Comparing two runs -/

/-- The state without its GPU unit: what the CPU can see (R40). -/
def State.forgetGpu (s : State) : State := { s with gpu := none }

/-- Two answers that agree on all but the GPU unit. -/
def SameCpu : Result → Result → Prop
  | .next t, .next u => t.forgetGpu = u.forgetGpu
  | .next _, .fault _ => False
  | .next _, .refused _ => False
  | .fault e, .fault f => e = f
  | .fault _, .next _ => False
  | .fault _, .refused _ => False
  | .refused e, .refused f => e = f
  | .refused _, .next _ => False
  | .refused _, .fault _ => False

end Sys2Proof.Machine
end

