-- ==== Sys2Proof/Certificates/Slice0/Obligations.lean ====
section
/-! DEFINITION. What is claimed of the model, for the provers. Each statement says which rule of the spec it formalises; a
clause that rests on a decision the spec marks as its own names that decision. -/

open Sys2Proof Sys2Proof.Machine

/-! ## Text and terms -/

/-- R70, R89: the text written for a well-formed term is read back as that term, every operand at every value. The
spelling written (two spaces, hexadecimal immediates) is log 1. -/
def Obligations.DecodeEncodeAgree : Prop :=
  ∀ i : Instr, i.wf = true → decode (encode i) = .ok i

/-- The same through the numbers the host hands over (log 1): the text's characters as bytes, the first lowest. -/
def Obligations.TableWordRoundTrip : Prop :=
  ∀ i : Instr, i.wf = true → decodeTableWord (8 * (encode i).length) (bitsOfText (encode i)) = some i

/-- Lines of the source, one or more of each family, and the terms 95_test_vectors.md gives them (S2, S4, S12, S24, S26, S32,
S34, S35, S37, S45). -/
def Obligations.SourceLinesDecode : Prop :=
  decode "LOAD  i:42, i:0x1001".toList = .ok (.load (.imm 0x002A) (.imm 0x1001)) ∧
  decode "READ  i:0x1000, 31".toList = .ok (.read (.imm 0x1000) (.reg 31)) ∧
  decode "ADD  5, i:1".toList = .ok (.add (.reg 5) (.imm 1)) ∧
  decode "SHLR  5, i:3".toList = .ok (.shlr (.reg 5) (.imm 3)) ∧
  decode "NOT  5".toList = .ok (.not (.reg 5)) ∧
  decode "JMP  2".toList = .ok (.jmp (.reg 2)) ∧
  decodeLine [(['o', 'v', 'e', 'r', 'f', 'l', 'o', 'w'], 9)] "JBT  overflow, 5, i:100".toList
    = .ok (.jbt (.imm 9) (.reg 5) (.imm 0x0064)) ∧
  decode "KEYIN  5".toList = .ok (.keyin (.reg 5)) ∧
  decode "HALT".toList = .ok .halt ∧
  decode "DRGRD  i:10, i:10, i:5, i:5".toList = .ok (.drgrd (.imm 10) (.imm 10) (.imm 5) (.imm 5)) ∧
  decode "SCRLBFR  i:0, i:-1".toList = .ok (.scrlbfr (.imm 0) (.imm 0xFFFF))

/-- R84 a, b, g and R86: a line that is accepted begins with the mnemonic of its term, has as many operand texts as the
format has kinds, and is not `JAL` with the register operand 2. R84 is decision D9. -/
def Obligations.AcceptedLinesAreTerms : Prop :=
  ∀ (syms : Symbols) (t : Text) (i : Instr), decodeLine syms t = .ok i →
    lineMnemonic t = i.mnemonic.name ∧ (lineOperands t).length = i.mnemonic.format.kinds.length ∧
    i.operands.length = i.mnemonic.format.kinds.length ∧ i.wf = true

/-- R78 a, b, c (decision D8): the word of an immediate whose literal is N, in any position of any mnemonic. -/
def Obligations.ImmediateAdmission : Prop :=
  ∀ (syms : Symbols) (m : Mnemonic) (k : Kind) (lit : Text) (n : Int), readLiteral lit = some n →
    (0 ≤ n → n ≤ 65535 →
      ∃ w : Word, parseOperand syms m k ('i' :: ':' :: lit) = .ok (.imm w) ∧ (w.toNat : Int) = n) ∧
    (-32768 ≤ n → n ≤ -1 → m = .scrlbfr →
      ∃ w : Word, parseOperand syms m k ('i' :: ':' :: lit) = .ok (.imm w) ∧ s16 w = n) ∧
    (-32768 ≤ n → n ≤ -1 → m ≠ .scrlbfr →
      parseOperand syms m k ('i' :: ':' :: lit) = .error .negativeImmediate) ∧
    (n < -32768 ∨ 65535 < n → parseOperand syms m k ('i' :: ':' :: lit) = .error .immediateRange)

/-! ## Load time -/

/-- R201: an assembled program has one term for each line that holds an instruction, in order, each the line's own under the
program's labels; it fits (R27, decision D4) and holds no refused term (R84, decision D9). -/
def Obligations.AssembledProgram : Prop :=
  ∀ (base : Nat) (lines : List SourceLine) (prog : List Instr), assemble base lines = .ok prog →
    Program.wf base prog = true ∧
    (lines.filter SourceLine.hasInstr).map (fun l => decodeLine (symbolsFrom base lines) l.text)
      = prog.map Except.ok

/-- R79: a label names the instruction address `PROG_BASE + k` of the instruction it marks, k the number of instructions
before it. That a label marks one place only is log 11. -/
def Obligations.LabelsNameAddresses : Prop :=
  ∀ (base : Nat) (before after : List SourceLine) (l : SourceLine) (name : Text), name ∈ l.labels →
    ((symbolsFrom base (before ++ l :: after)).map Prod.fst).Nodup →
    (symbolsFrom base (before ++ l :: after)).find name
      = some (base + (before.filter SourceLine.hasInstr).length)

/-- R41, R200 (decision D14): loading a program accepted at `base` gives a launch state, whatever the registers, RAM, keyboard
and GPU unit held, and leaves all of those as they were. -/
def Obligations.LoadGivesLaunchState : Prop :=
  ∀ (s : State) (base : Nat) (prog : List Instr), s.wf = true → Program.wf base prog = true →
    (s.load base prog).wf = true ∧ (s.load base prog).launched = true ∧
    (s.load base prog).prog = prog ∧ (s.load base prog).progBase = base ∧
    (s.load base prog).regs = s.regs ∧ (s.load base prog).ram = s.ram ∧
    (s.load base prog).keyboard = s.keyboard ∧ (s.load base prog).gpu = s.gpu ∧
    (s.load base prog).ramSize = s.ramSize

/-- R41, R200: reset is a launch state that satisfies the invariant. With no program loaded its step raises FetchFault at
`PROG_BASE` (log 12; decisions D5 and D10). -/
def Obligations.ResetIsLaunchState : Prop :=
  State.reset.launched = true ∧ State.reset.wf = true ∧
    step State.reset = .next (State.reset.setStatus (.faulted (.fetchFault 0)))

/-! ## RAM -/

/-- R52, R53: after a store to a cell of RAM that cell reads as the word stored and every other address answers as before. -/
def Obligations.StoreThenReadCell : Prop :=
  ∀ (s : State) (a v : Word), a.toNat < s.ramSize →
    ∃ t, s.memWrite a v = .ok t ∧ t.memRead a = .ok v ∧ ∀ b : Word, b ≠ a → t.memRead b = s.memRead b

/-- Two canonical memories that read the same at every address are the same list, so that equal RAMs are equal data (the
model's own representation of RAM, log 3). -/
def Obligations.CanonicalMemoriesAreEqual : Prop :=
  ∀ m n : Memory, m.wf = true → n.wf = true → (∀ a, m.read a = n.read a) → m = n

/-! ## A step -/

/-- R59: `Fetch(a)` answers the term at position `a - PROG_BASE` for the addresses of the program and no others. At any other
address it raises FetchFault (R183), and a running machine there becomes `Faulted(FetchFault(pc))` with all else unchanged:
decisions D5 and D10. -/
def Obligations.FetchReadsProgramStore : Prop :=
  ∀ (s : State) (a : Nat),
    (∀ k i, a = s.progBase + k → s.prog[k]? = some i → s.fetch a = .ok i) ∧
    (a < s.progBase ∨ s.progBase + s.prog.length ≤ a → s.fetch a = .error (.fetchFault a)) ∧
    (s.status = .running → s.pc < s.progBase ∨ s.progBase + s.prog.length ≤ s.pc →
      step s = .next (s.setStatus (.faulted (.fetchFault s.pc))))

/-- R59, R32: a running machine executes the instruction at `pc`; nothing is done around it (R26: each meaning advances `pc`
itself). -/
def Obligations.StepRunsFetchedInstruction : Prop :=
  ∀ (s : State) (i : Instr), s.status = .running → s.fetch s.pc = .ok i → step s = exec i s

/-- R32, R209: no further step exists exactly when the machine is halted, is faulted, or waits in KEYIN for a character, and in
which of the three ways (decisions D10, D15 and D18; that step then answers a fault is the form of log 15). -/
def Obligations.StoppedMachineHasNoStep : Prop :=
  ∀ s : State, (step s = .fault .halted ↔ s.status = .halted) ∧
    (∀ e, step s = .fault (.faulted e) ↔ s.status = .faulted e) ∧
    (step s = .fault .blocked ↔ s.Blocked)

/-- Every well-formed running machine that does not wait in KEYIN has a next state: no instruction of an accepted program is
refused, and none but a waiting KEYIN stops. -/
def Obligations.RunningMachineSteps : Prop :=
  ∀ s : State, s.wf = true → s.status = .running → ¬ s.Blocked → ∃ t, step s = .next t

/-- The invariant of the state is kept by every step (R27, R28, R29, R38, R84). -/
def Obligations.StepKeepsStateWellFormed : Prop :=
  ∀ s t : State, s.wf = true → step s = .next t → t.wf = true

/-- R30, R39: no step changes the program store, `PROG_BASE`, RAM_SIZE, whether a GPU is attached, or the GPU's buffer
selection. The last is decision D27, the separate store decision D2. -/
def Obligations.StepKeepsLaunchParameters : Prop :=
  ∀ s t : State, step s = .next t →
    LaunchKept s t ∧ t.gpu.isSome = s.gpu.isSome ∧
    ∀ g h, s.gpu = some g → t.gpu = some h → h.edit = g.edit ∧ h.disp = g.disp

/-- R40: two machines that differ only in what their GPU units hold take steps that differ only there: the registers, RAM, `pc`,
keyboard and status do not depend on the GPU state. -/
def Obligations.GpuStateNeverReachesCpu : Prop :=
  ∀ (s : State) (g h : Gpu), SameCpu (step { s with gpu := some g }) (step { s with gpu := some h })

/-- R40, its second half: with a GPU attached or with none, a step that raises no GpuRangeFault takes the CPU to the same
state. -/
def Obligations.GpuAttachmentInvisibleToCpu : Prop :=
  ∀ (s t : State) (g : Gpu), step { s with gpu := some g } = .next t →
    (∀ p, t.status ≠ .faulted (.gpuRangeFault p)) →
    ∃ u, step { s with gpu := none } = .next u ∧ u.forgetGpu = t.forgetGpu

/-- R185 (decision D10): a step that raises an exception writes nothing and leaves `pc` where it was; only the status
changes. -/
def Obligations.FaultingStepWritesNothing : Prop :=
  ∀ (s t : State) (e : Exception), s.status = .running → step s = .next t → t.status = .faulted e →
    t = s.setStatus (.faulted e)

/-- R181, R182, R184, R186: which instruction raises which exception, and when. Executing an instruction never raises
FetchFault (R183). MemRangeFault is decision D7 and GpuRangeFault decision D20. -/
def Obligations.ExceptionSources : Prop :=
  ∀ (i : Instr) (s t : State) (e : Exception), s.status = .running → exec i s = .next t → t.status = .faulted e →
    match e with
    | .divideByZero => ∃ a b, i = .div a b ∧ val b s = 0
    | .operandTypeError =>
      (∃ v, i = .not (.imm v)) ∨ (∃ a v, i = .read a (.imm v)) ∨ (∃ a v, i = .mvr a (.imm v))
    | .fetchFault _ => False
    | .memRangeFault a =>
      s.ramSize ≤ a.toNat ∧
      ((∃ x y, i = .load x y ∧ a = val y s) ∨ (∃ x y, i = .read x y ∧ a = val x s) ∨
        (∃ x y, i = .mvm x y ∧ (a = val x s ∨ a = val y s)) ∨ (∃ x, i = .keyin x ∧ a = val x s))
    | .gpuRangeFault p => isGpuMnemonic i.mnemonic = true ∧ s.gpu.isSome = true ∧ 1 ≤ p ∧ p ≤ 4

/-- R152, R209: HALT, and no other instruction, halts a running machine. -/
def Obligations.OnlyHaltHalts : Prop :=
  ∀ (i : Instr) (s t : State), s.status = .running → exec i s = .next t → t.status = .halted → i = .halt

/-- R21, R22: an instruction writes no register but its implicit outputs (R0 by the ten ALU instructions, R1 by MULT and DIV,
R2 by JAL) and the register it names as destination (READ, MVR, NOT). -/
def Obligations.RegisterWriters : Prop :=
  ∀ (i : Instr) (s t : State), exec i s = .next t → RegsKept s t (destRegs i)

/-- R28: RAM is written by LOAD, MVM and KEYIN, each at the one cell its address operand names, and by no other
instruction. -/
def Obligations.RamWriters : Prop :=
  ∀ (i : Instr) (s t : State), exec i s = .next t → RamKept s t (storesTo i s)

/-- R40, R35: only a GPU instruction changes the GPU unit, and only KEYIN takes a character from the keyboard. -/
def Obligations.DeviceWriters : Prop :=
  ∀ (i : Instr) (s t : State), exec i s = .next t →
    (isGpuMnemonic i.mnemonic = false → t.gpu = s.gpu) ∧
    (i.mnemonic ≠ .keyin → t.keyboard = s.keyboard) ∧
    (t.keyboard = s.keyboard ∨ ∃ c, s.keyboard = c :: t.keyboard)

/-- R26: an instruction that is no jump and neither halts nor raises ends at `pc + 1`. The spec marks R26 as derived. -/
def Obligations.SequentialAdvance : Prop :=
  ∀ (i : Instr) (s t : State), s.status = .running → exec i s = .next t → t.status = .running →
    isJumpMnemonic i.mnemonic = false → t.pc = s.pc + 1

/-! ## Memory instructions -/

/-- R100: LOAD stores the word of `src` in RAM at `dst_addr`; an address outside RAM raises MemRangeFault (decision D7; what
raising does: decision D10, log 14). -/
def Obligations.LoadWritesRam : Prop :=
  ∀ (src dstAddr : Operand) (s : State),
    ((val dstAddr s).toNat < s.ramSize →
      ∃ t, exec (.load src dstAddr) s = .next t ∧ t.ram.read (val dstAddr s).toNat = val src s ∧
        t.pc = s.pc + 1 ∧ t.keyboard = s.keyboard ∧ OnlyCell s t (val dstAddr s).toNat) ∧
    (s.ramSize ≤ (val dstAddr s).toNat →
      exec (.load src dstAddr) s = .next (s.setStatus (.faulted (.memRangeFault (val dstAddr s)))))

/-- R101: READ puts the word of RAM at `src_addr` into register `dst`; an immediate `dst` raises OperandTypeError, before an
address outside RAM raises MemRangeFault (decisions D7, D10 and D33). -/
def Obligations.ReadLoadsRegister : Prop :=
  ∀ (srcAddr : Operand) (d : RegNum) (v : Word) (s : State),
    ((val srcAddr s).toNat < s.ramSize →
      ∃ t, exec (.read srcAddr (.reg d)) s = .next t ∧ t.getReg d = s.ram.read (val srcAddr s).toNat ∧
        t.pc = s.pc + 1 ∧ OnlyRegs s t [d]) ∧
    (s.ramSize ≤ (val srcAddr s).toNat →
      exec (.read srcAddr (.reg d)) s = .next (s.setStatus (.faulted (.memRangeFault (val srcAddr s))))) ∧
    exec (.read srcAddr (.imm v)) s = .next (s.setStatus (.faulted .operandTypeError))

/-- R102: MVR puts the word of `src` into register `dst` and writes nothing else; an immediate `dst` raises
OperandTypeError (what raising does: decision D10, log 14). -/
def Obligations.MoveToRegister : Prop :=
  ∀ (src : Operand) (d : RegNum) (v : Word) (s : State),
    (∃ t, exec (.mvr src (.reg d)) s = .next t ∧ t.getReg d = val src s ∧ t.pc = s.pc + 1 ∧ OnlyRegs s t [d]) ∧
    exec (.mvr src (.imm v)) s = .next (s.setStatus (.faulted .operandTypeError))

/-- R103: MVM copies one RAM cell to another; the source address is checked first (decisions D7, D10 and D33). -/
def Obligations.MoveMemoryCell : Prop :=
  ∀ (srcAddr dstAddr : Operand) (s : State),
    ((val srcAddr s).toNat < s.ramSize → (val dstAddr s).toNat < s.ramSize →
      ∃ t, exec (.mvm srcAddr dstAddr) s = .next t ∧
        t.ram.read (val dstAddr s).toNat = s.ram.read (val srcAddr s).toNat ∧
        t.pc = s.pc + 1 ∧ t.keyboard = s.keyboard ∧ OnlyCell s t (val dstAddr s).toNat) ∧
    (s.ramSize ≤ (val srcAddr s).toNat →
      exec (.mvm srcAddr dstAddr) s = .next (s.setStatus (.faulted (.memRangeFault (val srcAddr s))))) ∧
    ((val srcAddr s).toNat < s.ramSize → s.ramSize ≤ (val dstAddr s).toNat →
      exec (.mvm srcAddr dstAddr) s = .next (s.setStatus (.faulted (.memRangeFault (val dstAddr s)))))

/-! ## Arithmetic -/

/-- R110: ADD, the sum reduced modulo 65536. -/
def Obligations.AddWraps : Prop :=
  ∀ (a b : Operand) (s : State),
    ∃ t, exec (.add a b) s = .next t ∧ (t.getReg 0).toNat = ((val a s).toNat + (val b s).toNat) % 65536 ∧
      t.pc = s.pc + 1 ∧ OnlyRegs s t [0]

/-- R111: SUB, the difference reduced modulo 65536; a minuend below the subtrahend gives `65536 + A - B`. -/
def Obligations.SubtractWraps : Prop :=
  ∀ (a b : Operand) (s : State),
    ∃ t, exec (.sub a b) s = .next t ∧ t.pc = s.pc + 1 ∧ OnlyRegs s t [0] ∧
      ((val b s).toNat ≤ (val a s).toNat → (t.getReg 0).toNat = (val a s).toNat - (val b s).toNat) ∧
      ((val a s).toNat < (val b s).toNat → (t.getReg 0).toNat = 65536 + (val a s).toNat - (val b s).toNat)

/-- R111: the sign bit of R0 after SUB is a signed comparison as long as the difference of the signed readings fits in 16
signed bits. The spec marks the bound as derived. -/
def Obligations.SignBitAfterSubtract : Prop :=
  ∀ (a b : Operand) (s t : State), exec (.sub a b) s = .next t →
    -32768 ≤ s16 (val a s) - s16 (val b s) → s16 (val a s) - s16 (val b s) ≤ 32767 →
    (signBit (t.getReg 0) = true ↔ s16 (val a s) < s16 (val b s))

/-- R112: MULT, the low and the high word of the unsigned product. -/
def Obligations.MultiplyLowHigh : Prop :=
  ∀ (a b : Operand) (s : State),
    ∃ t, exec (.mult a b) s = .next t ∧
      (t.getReg 0).toNat = (val a s).toNat * (val b s).toNat % 65536 ∧
      (t.getReg 1).toNat = (val a s).toNat * (val b s).toNat / 65536 ∧
      t.pc = s.pc + 1 ∧ OnlyRegs s t [0, 1]

/-- R181: DIV by zero raises DivideByZero, whatever the dividend; R0, R1 and `pc` are unchanged (what raising does: decision
D10, log 14). -/
def Obligations.DivideByZeroRaises : Prop :=
  ∀ (a b : Operand) (s : State), val b s = 0 →
    exec (.div a b) s = .next (s.setStatus (.faulted .divideByZero))

/-- R113 (decision D11: operand words read as two's complement): DIV's quotient rounds toward zero and the remainder is
`a - q * b`, each reduced modulo 65536. -/
def Obligations.DivideTruncates : Prop :=
  ∀ (a b : Operand) (s : State), val b s ≠ 0 →
    ∃ t, exec (.div a b) s = .next t ∧
      t.getReg 0 = u16 (Int.tdiv (s16 (val a s)) (s16 (val b s))) ∧
      t.getReg 1 = u16 (s16 (val a s) - Int.tdiv (s16 (val a s)) (s16 (val b s)) * s16 (val b s)) ∧
      t.pc = s.pc + 1 ∧ OnlyRegs s t [0, 1]

/-- R115 (derived there, under decision D11): away from -32768 / -1 the signed readings satisfy `a = q * b + r`, `|r| < |b|`, and r
is 0 or has the sign of a. -/
def Obligations.DivisionIdentity : Prop :=
  ∀ (a b : Operand) (s t : State), val b s ≠ 0 → ¬ (val a s = 0x8000 ∧ val b s = 0xFFFF) →
    exec (.div a b) s = .next t →
    s16 (val a s) = s16 (t.getReg 0) * s16 (val b s) + s16 (t.getReg 1) ∧
    (s16 (t.getReg 1)).natAbs < (s16 (val b s)).natAbs ∧
    0 ≤ s16 (t.getReg 1) * s16 (val a s)

/-- R116: on operand words below 0x8000, where the two readings of DIV agree, the quotient is the floor and the remainder the
unsigned one. -/
def Obligations.DivisionBelowSignBit : Prop :=
  ∀ (a b : Operand) (s t : State), (val a s).toNat < 0x8000 → (val b s).toNat < 0x8000 → val b s ≠ 0 →
    exec (.div a b) s = .next t →
    (t.getReg 0).toNat = (val a s).toNat / (val b s).toNat ∧
    (t.getReg 1).toNat = (val a s).toNat % (val b s).toNat

/-! ## Shifts and rotation -/

/-- R120, R121: the bits of SHL's and SHR's result. That an amount of 16 or more gives 0 is R123, decision D12. -/
def Obligations.ShiftBits : Prop :=
  ∀ (a b : Operand) (s : State),
    (∃ t, exec (.shl a b) s = .next t ∧ t.pc = s.pc + 1 ∧ OnlyRegs s t [0] ∧
      ∀ j, j < 16 → (t.getReg 0).getLsbD j =
        (decide ((val b s).toNat ≤ j) && (val a s).getLsbD (j - (val b s).toNat))) ∧
    (∃ t, exec (.shr a b) s = .next t ∧ t.pc = s.pc + 1 ∧ OnlyRegs s t [0] ∧
      ∀ j, j < 16 → (t.getReg 0).getLsbD j = (val a s).getLsbD (j + (val b s).toNat))

/-- R122: the bits of SHLR's result: each bit of A moves up by the amount and wraps from bit 15 to bit 0. That an amount of 16 or
more is taken modulo 16 is R123, decision D12. -/
def Obligations.RotateLeftBits : Prop :=
  ∀ (a b : Operand) (s : State),
    ∃ t, exec (.shlr a b) s = .next t ∧ t.pc = s.pc + 1 ∧ OnlyRegs s t [0] ∧
      ∀ j, j < 16 → (t.getReg 0).getLsbD ((j + (val b s).toNat) % 16) = (val a s).getLsbD j

/-! ## Bitwise -/

/-- R130, R131, R132: the bits of the results of AND, OR and XOR. -/
def Obligations.BitwiseBits : Prop :=
  ∀ (a b : Operand) (s : State),
    (∃ t, exec (.and a b) s = .next t ∧ t.pc = s.pc + 1 ∧ OnlyRegs s t [0] ∧
      ∀ j, (t.getReg 0).getLsbD j = ((val a s).getLsbD j && (val b s).getLsbD j)) ∧
    (∃ t, exec (.or a b) s = .next t ∧ t.pc = s.pc + 1 ∧ OnlyRegs s t [0] ∧
      ∀ j, (t.getReg 0).getLsbD j = ((val a s).getLsbD j || (val b s).getLsbD j)) ∧
    (∃ t, exec (.xor a b) s = .next t ∧ t.pc = s.pc + 1 ∧ OnlyRegs s t [0] ∧
      ∀ j, (t.getReg 0).getLsbD j = ((val a s).getLsbD j ^^ (val b s).getLsbD j))

/-- R133: NOT complements its own register, `0xFFFF - w`, and nothing else; an immediate raises OperandTypeError
(what raising does: decision D10, log 14). -/
def Obligations.NotInPlace : Prop :=
  ∀ (n : RegNum) (v : Word) (s : State),
    (∃ t, exec (.not (.reg n)) s = .next t ∧ (t.getReg n).toNat = 0xFFFF - (s.getReg n).toNat ∧
      t.pc = s.pc + 1 ∧ OnlyRegs s t [n]) ∧
    exec (.not (.imm v)) s = .next (s.setStatus (.faulted .operandTypeError))

/-! ## Control flow -/

/-- R140: JMP. -/
def Obligations.JumpSetsPc : Prop :=
  ∀ (target : Operand) (s : State),
    ∃ t, exec (.jmp target) s = .next t ∧ t.pc = (val target s).toNat ∧ OnlyRegs s t []

/-- R141: JAL writes `pc + 1`, reduced modulo 65536 (R27), to R2 and jumps; every operand but the register 2. -/
def Obligations.JumpAndLink : Prop :=
  ∀ (target : Operand) (s : State), target ≠ .reg 2 →
    ∃ t, exec (.jal target) s = .next t ∧ t.pc = (val target s).toNat ∧
      (t.getReg 2).toNat = (s.pc + 1) % 65536 ∧ OnlyRegs s t [2]

/-- R141, R84 g (decision D13): `JAL` with the register operand 2 is refused, by the decoder whatever the spelling, and by
exec in a state no load makes. -/
def Obligations.JumpAndLinkOnLinkRegister : Prop :=
  (∀ s : State, exec (.jal (.reg 2)) s = .refused .jalLinkOperand) ∧
  ∀ (syms : Symbols) (t : Text), decodeLine syms t ≠ .ok (.jal (.reg 2))

/-- R142, R143: JZ jumps exactly when `cond` is 0 and JNZ exactly when it is not; else `pc + 1`. -/
def Obligations.ZeroTestJumps : Prop :=
  ∀ (target cond : Operand) (s : State),
    (∃ t, exec (.jz target cond) s = .next t ∧ OnlyRegs s t [] ∧
      t.pc = if (val cond s).toNat = 0 then (val target s).toNat else s.pc + 1) ∧
    (∃ t, exec (.jnz target cond) s = .next t ∧ OnlyRegs s t [] ∧
      t.pc = if (val cond s).toNat = 0 then s.pc + 1 else (val target s).toNat)

/-- R144: JBT jumps exactly when x is greater than y as unsigned integers; else `pc + 1`. -/
def Obligations.GreaterThanJump : Prop :=
  ∀ (target x y : Operand) (s : State),
    ∃ t, exec (.jbt target x y) s = .next t ∧ OnlyRegs s t [] ∧
      t.pc = if (val y s).toNat < (val x s).toNat then (val target s).toNat else s.pc + 1

/-! ## System -/

/-- R150 (the zero upper bits and the check before the wait are decision D18): KEYIN takes the next character and writes its code
to RAM; an address outside RAM raises MemRangeFault and no character is taken. -/
def Obligations.KeyinStoresCode : Prop :=
  ∀ (addr : Operand) (s : State),
    (∀ c cs, (val addr s).toNat < s.ramSize → s.keyboard = c :: cs →
      ∃ t, exec (.keyin addr) s = .next t ∧ (t.ram.read (val addr s).toNat).toNat = c.toNat ∧
        t.keyboard = cs ∧ t.pc = s.pc + 1 ∧ OnlyCell s t (val addr s).toNat) ∧
    (s.ramSize ≤ (val addr s).toNat →
      exec (.keyin addr) s = .next (s.setStatus (.faulted (.memRangeFault (val addr s)))))

/-- R150, R32: while the keyboard has no character KEYIN has no step; once a key comes the same instruction, in the state as it
was, completes with its code and takes it. -/
def Obligations.KeyinWaitsForKey : Prop :=
  ∀ (addr : Operand) (s : State) (c : KeyCode), (val addr s).toNat < s.ramSize → s.keyboard = [] →
    exec (.keyin addr) s = .fault .blocked ∧
    ∃ t, exec (.keyin addr) (s.press c) = .next t ∧ t.keyboard = [] ∧
      (t.ram.read (val addr s).toNat).toNat = c.toNat ∧ t.pc = s.pc + 1 ∧ OnlyCell s t (val addr s).toNat

/-- R152 (that `pc` stays is decision D15): HALT changes the status to Halted and nothing else. -/
def Obligations.HaltStops : Prop :=
  ∀ s : State, ∃ t, exec .halt s = .next t ∧ t.status = .halted ∧ t.pc = s.pc ∧ t.regs = s.regs ∧ t.ram = s.ram ∧
    t.keyboard = s.keyboard ∧ t.gpu = s.gpu ∧ LaunchKept s t

/-- R151: the 43 characters and their codes determine each other, letters 0 to 25, digits 26 to 35, symbols 36 to 42; codes 43 to
63 are assigned to nothing. The one-by-one order of the symbols is marked derived in the spec. -/
def Obligations.CharacterEncoding : Prop :=
  (∀ (c : Char) (k : KeyCode), charCode c = some k ↔ codeChar k = some c) ∧
  (∀ k : KeyCode, (codeChar k).isSome = true ↔ k.toNat ≤ 42) ∧
  (∀ k : KeyCode, k.toNat ≤ 25 → codeChar k = some (Char.ofNat (65 + k.toNat))) ∧
  (∀ k : KeyCode, 26 ≤ k.toNat → k.toNat ≤ 35 → codeChar k = some (Char.ofNat (48 + (k.toNat - 26)))) ∧
  ['!', '?', '+', '-', '*', '.', ','].map charCode = [some 36, some 37, some 38, some 39, some 40, some 41, some 42]

/-! ## The GPU unit -/

/-- R160 (that the operands are not even checked is decision D30): with no GPU attached each of the eight instructions only
advances `pc`, whatever its operands. -/
def Obligations.GpuDetachedIgnored : Prop :=
  ∀ (i : Instr) (s : State), isGpuMnemonic i.mnemonic = true → s.gpu = none →
    ∃ t, exec i s = .next t ∧ t.pc = s.pc + 1 ∧ t.gpu = none ∧ OnlyGpu s t

/-- R163 (colour: decision D21; LINE is open): DRLINE sets the pixels of LINE and keeps the others. -/
def Obligations.DrawLinePixels : Prop :=
  ∀ (x1 y1 x2 y2 : Operand) (s : State) (g : Gpu) (a b c d : Coord), s.gpu = some g →
    (val x1 s).toNat = a.val → (val y1 s).toNat = b.val → (val x2 s).toNat = c.val → (val y2 s).toNat = d.val →
    ∃ t h, exec (.drline x1 y1 x2 y2) s = .next t ∧ t.gpu = some h ∧ t.pc = s.pc + 1 ∧ OnlyGpu s t ∧
      OnlyEditBuffer g h ∧
      ∀ x y, Buffer.pixel h.editBuffer x y = (Config.line a b c d x y || Buffer.pixel g.editBuffer x y)

/-- R164, R165: DRGRD sets and CLRGRID clears exactly the pixels of the rectangle, for operands in range (R162). -/
def Obligations.FillAndClearRectangle : Prop :=
  ∀ (x y width height : Operand) (s : State) (g : Gpu), s.gpu = some g →
    (val x s).toNat ≤ 31 → (val y s).toNat ≤ 31 → 1 ≤ (val width s).toNat → 1 ≤ (val height s).toNat →
    (val x s).toNat + (val width s).toNat ≤ 32 → (val y s).toNat + (val height s).toNat ≤ 32 →
    (∃ t h, exec (.drgrd x y width height) s = .next t ∧ t.gpu = some h ∧ t.pc = s.pc + 1 ∧ OnlyGpu s t ∧
      OnlyEditBuffer g h ∧
      ∀ px py : Coord, Buffer.pixel h.editBuffer px py =
        (decide (((val x s).toNat ≤ px.val ∧ px.val < (val x s).toNat + (val width s).toNat) ∧
          ((val y s).toNat ≤ py.val ∧ py.val < (val y s).toNat + (val height s).toNat)) ||
          Buffer.pixel g.editBuffer px py)) ∧
    (∃ t h, exec (.clrgrid x y width height) s = .next t ∧ t.gpu = some h ∧ t.pc = s.pc + 1 ∧ OnlyGpu s t ∧
      OnlyEditBuffer g h ∧
      ∀ px py : Coord, Buffer.pixel h.editBuffer px py =
        (!decide (((val x s).toNat ≤ px.val ∧ px.val < (val x s).toNat + (val width s).toNat) ∧
          ((val y s).toNat ≤ py.val ∧ py.val < (val y s).toNat + (val height s).toNat)) &&
          Buffer.pixel g.editBuffer px py))

/-- R162, R188 (decisions D20 and D33): a DRGRD or CLRGRID operand out of range, or a rectangle past the edge, raises
GpuRangeFault with the position of the first that offends; nothing else changes. -/
def Obligations.RectangleRangeFaults : Prop :=
  ∀ (x y width height : Operand) (s : State) (g : Gpu) (i : Instr), s.gpu = some g →
    i = .drgrd x y width height ∨ i = .clrgrid x y width height →
    let a := (val x s).toNat
    let b := (val y s).toNat
    let w := (val width s).toNat
    let h := (val height s).toNat
    (32 ≤ a → exec i s = .next (s.setStatus (.faulted (.gpuRangeFault 1)))) ∧
    (a ≤ 31 → 32 ≤ b → exec i s = .next (s.setStatus (.faulted (.gpuRangeFault 2)))) ∧
    (a ≤ 31 → b ≤ 31 → w = 0 ∨ 32 < w → exec i s = .next (s.setStatus (.faulted (.gpuRangeFault 3)))) ∧
    (a ≤ 31 → b ≤ 31 → 1 ≤ w → w ≤ 32 → h = 0 ∨ 32 < h →
      exec i s = .next (s.setStatus (.faulted (.gpuRangeFault 4)))) ∧
    (a ≤ 31 → b ≤ 31 → 1 ≤ w → w ≤ 32 → 1 ≤ h → h ≤ 32 → 32 < a + w →
      exec i s = .next (s.setStatus (.faulted (.gpuRangeFault 3)))) ∧
    (a ≤ 31 → b ≤ 31 → 1 ≤ w → 1 ≤ h → h ≤ 32 → a + w ≤ 32 → 32 < b + h →
      exec i s = .next (s.setStatus (.faulted (.gpuRangeFault 4))))

/-- R162, R166 (decisions D20, D25, D33): the operand ranges of the other GPU instructions; each raises GpuRangeFault with the
position of its first offending operand. -/
def Obligations.SlotAndPointRangeFaults : Prop :=
  ∀ (p q r u : Operand) (s : State) (g : Gpu), s.gpu = some g →
    let a := (val p s).toNat
    let b := (val q s).toNat
    let c := (val r s).toNat
    let d := (val u s).toNat
    let raised := fun k => Host.Outcome.next (φ := Fault) (ρ := Refusal) (s.setStatus (.faulted (.gpuRangeFault k)))
    (32 ≤ a → exec (.drline p q r u) s = raised 1) ∧
    (a ≤ 31 → 32 ≤ b → exec (.drline p q r u) s = raised 2) ∧
    (a ≤ 31 → b ≤ 31 → 32 ≤ c → exec (.drline p q r u) s = raised 3) ∧
    (a ≤ 31 → b ≤ 31 → c ≤ 31 → 32 ≤ d → exec (.drline p q r u) s = raised 4) ∧
    (32 ≤ a → exec (.ldspr p q) s = raised 1) ∧
    (a ≤ 31 → 0x7FFF < b → exec (.ldspr p q) s = raised 2) ∧
    (32 ≤ a → exec (.drspr p q r) s = raised 1) ∧
    (a ≤ 31 → 32 ≤ b → exec (.drspr p q r) s = raised 2) ∧
    (a ≤ 31 → b ≤ 31 → 32 ≤ c → exec (.drspr p q r) s = raised 3) ∧
    (16384 ≤ a → exec (.ldtxt p q) s = raised 1) ∧
    (a ≤ 16383 → 42 < b → exec (.ldtxt p q) s = raised 2) ∧
    (16384 ≤ a → exec (.drtxt p q r) s = raised 1) ∧
    (a ≤ 16383 → 32 ≤ b → exec (.drtxt p q r) s = raised 2) ∧
    (a ≤ 16383 → b ≤ 31 → 32 ≤ c → exec (.drtxt p q r) s = raised 3)

/-- R166, R37: LDSPR puts the 15 bits of `data` into sprite slot `id` and draws nothing; the pixel at column c and row r of the
slot is then bit `14 - (5*r + c)` of `data`. -/
def Obligations.LoadSpriteSlot : Prop :=
  ∀ (id data : Operand) (s : State) (g : Gpu) (k : Fin 32), s.gpu = some g → (val id s).toNat = k.val →
    (val data s).toNat ≤ 0x7FFF →
    ∃ t h, exec (.ldspr id data) s = .next t ∧ t.gpu = some h ∧ t.pc = s.pc + 1 ∧ OnlyGpu s t ∧
      (h.spriteSlot k).toNat = (val data s).toNat ∧
      (∀ (c : Fin 5) (r : Fin 3),
        spritePixel (h.spriteSlot k) c r = (val data s).getLsbD (14 - (5 * r.val + c.val))) ∧
      (∀ j, j ≠ k → h.spriteSlot j = g.spriteSlot j) ∧
      h.buf = g.buf ∧ h.text = g.text ∧ h.edit = g.edit ∧ h.disp = g.disp

/-- R167, R169 (BLIT and FONT are open, decisions D22 and D23): DRSPR replaces the edit buffer by BLIT of the sprite in slot `id`,
and DRTXT by BLIT of the glyph of the code in text slot `id`; the slots are unchanged. -/
def Obligations.DrawSpriteAndText : Prop :=
  ∀ (id x y : Operand) (s : State) (g : Gpu) (a b : Coord), s.gpu = some g →
    (val x s).toNat = a.val → (val y s).toNat = b.val →
    (∀ k : Fin 32, (val id s).toNat = k.val →
      ∃ t h, exec (.drspr id x y) s = .next t ∧ t.gpu = some h ∧ t.pc = s.pc + 1 ∧ OnlyGpu s t ∧
        OnlyEditBuffer g h ∧ h.editBuffer = Config.blit (.sprite (g.spriteSlot k)) g.editBuffer a b) ∧
    ((val id s).toNat ≤ 16383 →
      ∃ t h, exec (.drtxt id x y) s = .next t ∧ t.gpu = some h ∧ t.pc = s.pc + 1 ∧ OnlyGpu s t ∧
        OnlyEditBuffer g h ∧
        h.editBuffer = Config.blit (.text (Config.font (g.textSlot (val id s).toNat))) g.editBuffer a b)

/-- R168: LDTXT puts the character code into text slot `id` and draws nothing. -/
def Obligations.LoadTextSlot : Prop :=
  ∀ (id charCode : Operand) (s : State) (g : Gpu), s.gpu = some g → (val id s).toNat ≤ 16383 →
    (val charCode s).toNat ≤ 42 →
    ∃ t h, exec (.ldtxt id charCode) s = .next t ∧ t.gpu = some h ∧ t.pc = s.pc + 1 ∧ OnlyGpu s t ∧
      (h.textSlot (val id s).toNat).val = (val charCode s).toNat ∧
      (∀ j, j ≠ (val id s).toNat → h.textSlot j = g.textSlot j) ∧
      h.buf = g.buf ∧ h.sprite = g.sprite ∧ h.edit = g.edit ∧ h.disp = g.disp

/-- R170 (signed offsets and black vacated pixels are decision D24): SCRLBFR moves every pixel that stays inside the
buffer by the offsets, and every pixel no old pixel moves into is 0. -/
def Obligations.ScrollMovesPixels : Prop :=
  ∀ (offx offy : Operand) (s : State) (g : Gpu), s.gpu = some g →
    ∃ t h, exec (.scrlbfr offx offy) s = .next t ∧ t.gpu = some h ∧ t.pc = s.pc + 1 ∧ OnlyGpu s t ∧
      OnlyEditBuffer g h ∧
      (∀ x y u v : Coord, (u.val : Int) = x.val + s16 (val offx s) → (v.val : Int) = y.val + s16 (val offy s) →
        Buffer.pixel h.editBuffer u v = Buffer.pixel g.editBuffer x y) ∧
      (∀ u v : Coord,
        (¬ ∃ x y : Coord, (u.val : Int) = x.val + s16 (val offx s) ∧ (v.val : Int) = y.val + s16 (val offy s)) →
        Buffer.pixel h.editBuffer u v = false)
end

