-- ==== Sys2Proof/Laws/Alu.lean ====
section
/-! SUPPORT. The two readings of a word and the narrowing of an integer (R7). -/

namespace Sys2Proof.Machine

theorem u16_toNat (n : Int) : ((u16 n).toNat : Int) = n % 65536 := by
  simp only [u16, BitVec.toNat_ofInt]
  omega

theorem u16_ofNat_toNat (n : Nat) : (u16 (n : Int)).toNat = n % 65536 := by
  have := u16_toNat n
  omega

theorem s16_range (w : Word) : -32768 ≤ s16 w ∧ s16 w ≤ 32767 := by
  have := w.isLt
  unfold s16; split <;> omega

/-- The signed and the unsigned reading differ by 0 or 65536. -/
theorem s16_emod (w : Word) : s16 w % 65536 = (w.toNat : Int) := by
  have := w.isLt
  unfold s16; split <;> omega

/-- Narrowing an integer that fits in 16 signed bits loses nothing. -/
theorem s16_u16 (n : Int) (h1 : -32768 ≤ n) (h2 : n ≤ 32767) : s16 (u16 n) = n := by
  have := u16_toNat n
  unfold s16; split <;> omega

theorem s16_eq_zero_iff (w : Word) : s16 w = 0 ↔ w = 0 := by
  have := w.isLt
  have h0 : w = 0 ↔ w.toNat = 0 := by rw [BitVec.toNat_eq]; rfl
  rw [h0]
  unfold s16; split <;> omega

/-- A word below 0x8000 reads the same both ways. -/
theorem s16_of_lt (w : Word) (h : w.toNat < 0x8000) : s16 w = (w.toNat : Int) := by
  simp [s16, h]

theorem signBit_iff (w : Word) : signBit w = true ↔ 0x8000 ≤ w.toNat := by
  have := w.isLt
  simp only [signBit, BitVec.getLsbD, Nat.testBit_eq_decide_div_mod_eq, decide_eq_true_eq]
  omega

/-- The sign bit is the sign of the two's-complement reading. -/
theorem signBit_iff_neg (w : Word) : signBit w = true ↔ s16 w < 0 := by
  have := w.isLt
  rw [signBit_iff]; unfold s16; split <;> omega

end Sys2Proof.Machine
end

