-- ==== Sys2Proof/Laws/Cells.lean ====
section
/-! SUPPORT. What reading and writing canonical storage does: read after write, and that every write keeps the form. -/

namespace Sys2Proof.Machine

variable {α : Type}

/-! ## Reading -/

theorem Cells.read_erase_self (d : α) (m : List (Nat × α)) (k : Nat) : Cells.read d (Cells.erase m k) k = d := by
  induction m with
  | nil => rfl
  | cons c cs ih =>
    by_cases h : c.1 = k
    · simpa [Cells.erase, h] using ih
    · simpa [Cells.erase, h, Cells.read] using ih

theorem Cells.read_erase_ne (d : α) (m : List (Nat × α)) {k j : Nat} (hj : j ≠ k) :
    Cells.read d (Cells.erase m k) j = Cells.read d m j := by
  induction m with
  | nil => rfl
  | cons c cs ih =>
    by_cases h : c.1 = k
    · have : c.1 ≠ j := fun e => hj (e.symm.trans h)
      simpa [Cells.erase, h, Cells.read, Ne.symm hj] using ih
    · by_cases h' : c.1 = j
      · simp [Cells.erase, Cells.read, h', hj]
      · simpa [Cells.erase, h, Cells.read, h'] using ih

theorem Cells.read_insert_self (d : α) (m : List (Nat × α)) (k : Nat) (v : α) (hm : ∀ c ∈ m, c.1 ≠ k) :
    Cells.read d (Cells.insert k v m) k = v := by
  induction m with
  | nil => simp [Cells.insert, Cells.read]
  | cons c cs ih =>
    have hc : c.1 ≠ k := hm c (by simp)
    by_cases h : k < c.1
    · simp [Cells.insert, h, Cells.read]
    · simpa [Cells.insert, h, Cells.read, hc] using ih fun x hx => hm x (by simp [hx])

theorem Cells.read_insert_ne (d : α) (m : List (Nat × α)) {k j : Nat} (v : α) (hj : j ≠ k) :
    Cells.read d (Cells.insert k v m) j = Cells.read d m j := by
  induction m with
  | nil => simp [Cells.insert, Cells.read, Ne.symm hj]
  | cons c cs ih =>
    by_cases h : k < c.1
    · simp [Cells.insert, h, Cells.read, Ne.symm hj]
    · simp [Cells.insert, h, Cells.read, ih]

theorem Cells.mem_erase {m : List (Nat × α)} {k : Nat} {c : Nat × α} :
    c ∈ Cells.erase m k ↔ c ∈ m ∧ c.1 ≠ k := by
  simp [Cells.erase]

theorem Cells.mem_insert {m : List (Nat × α)} {k : Nat} {v : α} {c : Nat × α} :
    c ∈ Cells.insert k v m ↔ c = (k, v) ∨ c ∈ m := by
  induction m with
  | nil => simp [Cells.insert]
  | cons x xs ih =>
    by_cases h : k < x.1
    · simp [Cells.insert, h]
    · simp only [Cells.insert, h, if_false, List.mem_cons, ih]; tauto

variable [DecidableEq α]

@[simp] theorem Cells.read_write_self (d : α) (m : List (Nat × α)) (k : Nat) (v : α) :
    Cells.read d (Cells.write d m k v) k = v := by
  by_cases h : v = d
  · simp [Cells.write, h, Cells.read_erase_self]
  · simp only [Cells.write, h, if_false]
    exact Cells.read_insert_self d _ k v fun c hc => (Cells.mem_erase.mp hc).2

theorem Cells.read_write_ne (d : α) (m : List (Nat × α)) {k j : Nat} (v : α) (hj : j ≠ k) :
    Cells.read d (Cells.write d m k v) j = Cells.read d m j := by
  by_cases h : v = d
  · simp [Cells.write, h, Cells.read_erase_ne d m hj]
  · simp [Cells.write, h, Cells.read_insert_ne d _ v hj, Cells.read_erase_ne d m hj]

theorem Cells.read_write (d : α) (m : List (Nat × α)) (k j : Nat) (v : α) :
    Cells.read d (Cells.write d m k v) j = if j = k then v else Cells.read d m j := by
  by_cases h : j = k
  · subst h; simp
  · simp [h, Cells.read_write_ne]

/-! ## The canonical form -/

theorem Cells.wf_iff (d : α) (m : List (Nat × α)) :
    Cells.wf d m = true ↔ (m.map Prod.fst).Pairwise (· < ·) ∧ ∀ c ∈ m, c.2 ≠ d := by
  simp [Cells.wf]

theorem Cells.rising_insert {β : Type} {k : Nat} {v : β} {m : List (Nat × β)}
    (hm : (m.map Prod.fst).Pairwise (· < ·)) (hk : ∀ c ∈ m, c.1 ≠ k) :
    ((Cells.insert k v m).map Prod.fst).Pairwise (· < ·) := by
  induction m with
  | nil => simp [Cells.insert]
  | cons c cs ih =>
    simp only [List.map_cons, List.pairwise_cons, List.mem_map, forall_exists_index, and_imp] at hm
    by_cases h : k < c.1
    · simp only [Cells.insert, h, if_true, List.map_cons, List.pairwise_cons, List.mem_cons, List.mem_map]
      refine ⟨?_, ?_, hm.2⟩
      · rintro a (rfl | ⟨x, hx, rfl⟩)
        · exact h
        · exact h.trans (hm.1 _ x hx rfl)
      · rintro a ⟨x, hx, rfl⟩; exact hm.1 _ x hx rfl
    · have hck : c.1 < k := lt_of_le_of_ne (Nat.le_of_not_lt h) (hk c (by simp))
      simp only [Cells.insert, h, if_false, List.map_cons, List.pairwise_cons, List.mem_map]
      refine ⟨?_, ih hm.2 fun x hx => hk x (by simp [hx])⟩
      rintro a ⟨x, hx, rfl⟩
      rcases Cells.mem_insert.mp hx with rfl | hx
      · exact hck
      · exact hm.1 _ x hx rfl

theorem Cells.wf_write (d : α) (m : List (Nat × α)) (k : Nat) (v : α) (hm : Cells.wf d m = true) :
    Cells.wf d (Cells.write d m k v) = true := by
  rw [Cells.wf_iff] at hm ⊢
  have hsub : (Cells.erase m k).Sublist m := List.filter_sublist
  have hrise : ((Cells.erase m k).map Prod.fst).Pairwise (· < ·) := hm.1.sublist (hsub.map _)
  by_cases h : v = d
  · simp only [Cells.write, h, if_true]
    exact ⟨hrise, fun c hc => hm.2 c (hsub.subset hc)⟩
  · simp only [Cells.write, h, if_false]
    refine ⟨Cells.rising_insert hrise fun c hc => (Cells.mem_erase.mp hc).2, fun c hc => ?_⟩
    rcases Cells.mem_insert.mp hc with rfl | hc
    · exact h
    · exact hm.2 c (hsub.subset hc)

theorem Cells.below_write (d : α) (m : List (Nat × α)) (n k : Nat) (v : α) (hm : Cells.below n m = true) (hk : k < n) :
    Cells.below n (Cells.write d m k v) = true := by
  simp only [Cells.below, List.all_eq_true, decide_eq_true_eq] at hm ⊢
  intro c hc
  by_cases h : v = d
  · simp only [Cells.write, h, if_true] at hc
    exact hm c (Cells.mem_erase.mp hc).1
  · simp only [Cells.write, h, if_false] at hc
    rcases Cells.mem_insert.mp hc with rfl | hc
    · exact hk
    · exact hm c (Cells.mem_erase.mp hc).1

/-- What an entry of a canonical list says, its key reads as. -/
theorem Cells.read_of_mem (d : α) (m : List (Nat × α)) (hm : Cells.wf d m = true) (c : Nat × α) (hc : c ∈ m) :
    Cells.read d m c.1 = c.2 := by
  rw [Cells.wf_iff] at hm
  obtain ⟨hrise, -⟩ := hm
  induction m with
  | nil => simp at hc
  | cons x xs ih =>
    simp only [List.map_cons, List.pairwise_cons, List.mem_map, forall_exists_index, and_imp] at hrise
    rcases List.mem_cons.mp hc with rfl | h
    · simp [Cells.read]
    · have hlt : x.1 < c.1 := hrise.1 _ c h rfl
      simpa [Cells.read, hlt.ne] using ih h hrise.2

/-! ## RAM -/

@[simp] theorem Memory.read_write_self (m : Memory) (a : Nat) (v : Word) : (m.write a v).read a = v :=
  Cells.read_write_self _ _ _ _

theorem Memory.read_write_ne (m : Memory) {a b : Nat} (v : Word) (h : b ≠ a) : (m.write a v).read b = m.read b :=
  Cells.read_write_ne _ _ _ h

theorem Memory.wf_write (m : Memory) (a : Nat) (v : Word) (h : m.wf = true) : (m.write a v).wf = true :=
  Cells.wf_write _ _ _ _ h

end Sys2Proof.Machine
end

