-- ==== Sys2Proof/Laws/Decode.lean ====
section
/-! SUPPORT. What the parts of the decoder do on the texts the encoder writes: numbers, operands, splitting and trimming. -/

namespace Sys2Proof

/-- A text with no white space, comma or slash in it, and not empty: one operand or one mnemonic. -/
def Plain (t : Text) : Prop := t ≠ [] ∧ ∀ c ∈ t, isBlank c = false ∧ c ≠ ',' ∧ c ≠ '/'

/-- The same as a test that evaluates. -/
def isPlain (t : Text) : Bool := !t.isEmpty && t.all (fun c => !isBlank c && c != ',' && c != '/')

theorem plain_of_isPlain (t : Text) (h : isPlain t = true) : Plain t := by
  simp only [isPlain, Bool.and_eq_true, Bool.not_eq_true', List.isEmpty_eq_false_iff, List.all_eq_true, bne_iff_ne] at h
  exact ⟨h.1, fun c hc => ⟨(h.2 c hc).1.1, (h.2 c hc).1.2, (h.2 c hc).2⟩⟩

/-! ## Numbers -/

theorem hexVal_hexDigit : ∀ n, n < 16 → hexVal (hexDigit n) = some n := by decide +kernel

theorem plain_hexDigit : ∀ n, n < 16 → isBlank (hexDigit n) = false ∧ hexDigit n ≠ ',' ∧ hexDigit n ≠ '/' := by
  decide +kernel

theorem readNat_encodeReg : ∀ n : RegNum, readNat 10 decVal (encodeReg n) = some n.val := by decide +kernel

theorem encodeReg_not_immediate : ∀ n : RegNum, (encodeReg n).head? ≠ some 'i' := by decide +kernel

theorem isPlain_encodeReg : ∀ n : RegNum, isPlain (encodeReg n) = true := by decide +kernel

theorem readLiteral_encodeWord (v : Word) : readLiteral (encodeWord v) = some (v.toNat : Int) := by
  have h0 := v.isLt
  have h1 := hexVal_hexDigit (v.toNat / 4096) (by omega)
  have h2 := hexVal_hexDigit (v.toNat / 256 % 16) (by omega)
  have h3 := hexVal_hexDigit (v.toNat / 16 % 16) (by omega)
  have h4 := hexVal_hexDigit (v.toNat % 16) (by omega)
  have h : readNat 16 hexVal ((encodeWord v).drop 2) = some v.toNat := by
    simp only [encodeWord, List.drop_succ_cons, List.drop_zero, readNat, readDigits, h1, h2, h3, h4]
    congr 1
    omega
  have h' : readLiteral (encodeWord v) = (readNat 16 hexVal ((encodeWord v).drop 2)).map fun n : Nat => (n : Int) := by
    simp only [readLiteral, encodeWord, List.drop_succ_cons, List.drop_zero]
  rw [h', h, Option.map_some]

theorem admitImmediate_word (b : Bool) (v : Word) : admitImmediate b (v.toNat : Int) = .ok v := by
  have h0 := v.isLt
  have h : (0 : Int) ≤ v.toNat ∧ (v.toNat : Int) ≤ 65535 := by omega
  simp only [admitImmediate, h, and_self, if_true]
  congr 1
  apply BitVec.eq_of_toNat_eq
  rw [BitVec.toNat_ofInt]
  omega

/-! ## Operands -/

theorem plain_encodeOperand (op : Operand) : Plain (encodeOperand op) := by
  cases op with
  | reg n => exact plain_of_isPlain _ (isPlain_encodeReg n)
  | imm v =>
    have h0 := v.isLt
    refine ⟨by simp [encodeOperand], fun c hc => ?_⟩
    simp only [encodeOperand, encodeWord, List.mem_cons, List.not_mem_nil, or_false] at hc
    rcases hc with rfl | rfl | rfl | rfl | rfl | rfl | rfl | rfl
    · decide
    · decide
    · decide
    · decide
    · exact plain_hexDigit _ (by omega)
    · exact plain_hexDigit _ (by omega)
    · exact plain_hexDigit _ (by omega)
    · exact plain_hexDigit _ (by omega)

/-- A text that does not begin with `i` is no immediate. -/
theorem parseOperand_bare (syms : Symbols) (m : Mnemonic) (k : Kind) (t : Text) (h : t.head? ≠ some 'i') :
    parseOperand syms m k t = bareOperand syms k t := by
  unfold parseOperand
  split
  · simp at h
  · rfl

/-- The text of an operand is read back as that operand, in any position. -/
theorem parseOperand_encodeOperand (syms : Symbols) (m : Mnemonic) (k : Kind) (op : Operand) :
    parseOperand syms m k (encodeOperand op) = .ok op := by
  cases op with
  | reg n =>
    rw [encodeOperand, parseOperand_bare _ _ _ _ (encodeReg_not_immediate n), bareOperand, readNat_encodeReg]
    simp
  | imm v =>
    simp [encodeOperand, parseOperand, readLiteral_encodeWord, admitImmediate_word, Except.map]

theorem parseOperands_encode (syms : Symbols) (m : Mnemonic) (ks : List Kind) (ops : List Operand)
    (h : ops.length = ks.length) : parseOperands syms m ks (ops.map encodeOperand) = .ok ops := by
  induction ks generalizing ops with
  | nil => cases ops <;> simp_all [parseOperands]
  | cons k ks ih =>
    cases ops with
    | nil => simp at h
    | cons op ops =>
      have := ih ops (by simpa using h)
      simp [parseOperands, parseOperand_encodeOperand, this]

/-- As many operand texts are read as the format has kinds. -/
theorem parseOperands_length (syms : Symbols) (m : Mnemonic) (ks : List Kind) (ts : List Text) (ops : List Operand)
    (h : parseOperands syms m ks ts = .ok ops) : ts.length = ks.length ∧ ops.length = ks.length := by
  induction ks generalizing ts ops with
  | nil =>
    cases ts with
    | nil => simp only [parseOperands] at h; cases h; simp
    | cons t ts => simp [parseOperands] at h
  | cons k ks ih =>
    cases ts with
    | nil => simp [parseOperands] at h
    | cons t ts =>
      simp only [parseOperands] at h
      split at h
      · cases h
      · split at h
        · cases h
        · rename_i ops' hops
          cases h
          have := ih ts ops' hops
          simp [this.1, this.2]

/-! ## Splitting and trimming -/

theorem splitOn_plain (sep : Char) (t : Text) (h : sep ∉ t) : splitOn sep t = [t] := by
  induction t with
  | nil => rfl
  | cons c cs ih =>
    simp only [List.mem_cons, not_or] at h
    simp [splitOn, Ne.symm h.1, ih h.2]

theorem splitOn_append (sep : Char) (a b : Text) (h : sep ∉ a) :
    splitOn sep (a ++ sep :: b) = a :: splitOn sep b := by
  induction a with
  | nil => simp [splitOn]
  | cons c cs ih =>
    simp only [List.mem_cons, not_or] at h
    simp [splitOn, Ne.symm h.1, ih h.2]

theorem stripComment_of_no_slash (t : Text) (h : '/' ∉ t) : stripComment t = t := by
  induction t with
  | nil => rfl
  | cons c cs ih =>
    simp only [List.mem_cons, not_or] at h
    cases cs with
    | nil => rfl
    | cons d ds =>
      have : ¬ (c = '/' ∧ d = '/') := fun x => h.1 x.1.symm
      simp only [stripComment, this, if_false, ih h.2]

theorem trim_blank_cons (c : Char) (t : Text) (h : isBlank c = true) : trim (c :: t) = trim t := by
  simp [trim, h]

/-- A text whose first and last characters are not white space is left as it is. -/
theorem trim_of_ends (t : Text) (h1 : ∀ c, t.head? = some c → isBlank c = false)
    (h2 : ∀ c, t.getLast? = some c → isBlank c = false) : trim t = t := by
  have hd : ∀ u : Text, (∀ c, u.head? = some c → isBlank c = false) → u.dropWhile isBlank = u := by
    intro u hu
    cases u with
    | nil => rfl
    | cons c cs => simp [List.dropWhile, hu c rfl]
  rw [trim, hd t h1, hd t.reverse (fun c hc => h2 c (by simpa using hc)), List.reverse_reverse]

theorem trim_plain (t : Text) (h : Plain t) : trim t = t :=
  trim_of_ends t (fun c hc => (h.2 c (List.mem_of_mem_head? hc)).1)
    (fun c hc => (h.2 c (List.mem_of_getLast? hc)).1)

/-- The operand texts joined by the encoder are split again. -/
theorem split_joinOperands (ts : List Text) (h : ∀ t ∈ ts, Plain t) (hne : ts ≠ []) :
    (splitOn ',' (joinOperands ts)).map trim = ts := by
  have comma : ∀ t, Plain t → ',' ∉ t := fun t ht hc => (ht.2 _ hc).2.1 rfl
  induction ts with
  | nil => exact absurd rfl hne
  | cons t ts ih =>
    have ht := h t (by simp)
    cases ts with
    | nil => simp [joinOperands, splitOn_plain _ _ (comma t ht), trim_plain t ht]
    | cons u us =>
      have hi := ih (fun x hx => h x (by simp [hx])) (by simp)
      rw [joinOperands, splitOn_append _ _ _ (comma t ht), List.map_cons, trim_plain t ht]
      congr 1
      rw [splitOn, if_neg (by decide)]
      revert hi
      cases splitOn ',' (joinOperands (u :: us)) with
      | nil => intro hi; simp at hi
      | cons p ps =>
        intro hi
        simpa [trim_blank_cons ' ' p (by decide)] using hi
      simp

/-! ## Mnemonics and terms -/

theorem ofName_name (m : Mnemonic) : Mnemonic.ofName m.name = some m := by cases m <;> decide +kernel

theorem plain_name (m : Mnemonic) : Plain m.name := by
  cases m <;> exact plain_of_isPlain _ (by decide +kernel)

/-- A word is read as a mnemonic only if it spells it. -/
theorem name_of_ofName (t : Text) (m : Mnemonic) (h : Mnemonic.ofName t = some m) : t = m.name := by
  exact (beq_iff_eq.mp (List.find?_some (p := fun m : Mnemonic => m.name == t) h)).symm

/-- A term is its mnemonic with its operands. -/
theorem ofTerm_self (i : Instr) : Instr.ofTerm i.mnemonic i.operands = some i := by cases i <;> rfl

theorem operands_length (i : Instr) : i.operands.length = i.mnemonic.format.kinds.length := by cases i <;> rfl

/-- What `ofTerm` answers has the mnemonic and the operands it was given. -/
theorem of_ofTerm (m : Mnemonic) (ops : List Operand) (i : Instr) (h : Instr.ofTerm m ops = some i) :
    i.mnemonic = m ∧ i.operands = ops := by
  unfold Instr.ofTerm at h
  split at h <;> first | (cases h; exact ⟨rfl, rfl⟩) | cases h

end Sys2Proof
end

