-- ==== Sys2Proof/Laws/State.lean ====
section
/-! SUPPORT. One lemma per field per update of the state, so that no proof unfolds a record update. -/

namespace Sys2Proof.Machine

variable (s : State)

@[simp] theorem State.setReg_regs (r : RegNum) (v : Word) : (s.setReg r v).regs = s.regs.set r v := rfl
@[simp] theorem State.setReg_pc (r : RegNum) (v : Word) : (s.setReg r v).pc = s.pc := rfl
@[simp] theorem State.setReg_ram (r : RegNum) (v : Word) : (s.setReg r v).ram = s.ram := rfl
@[simp] theorem State.setReg_status (r : RegNum) (v : Word) : (s.setReg r v).status = s.status := rfl
@[simp] theorem State.setReg_keyboard (r : RegNum) (v : Word) : (s.setReg r v).keyboard = s.keyboard := rfl
@[simp] theorem State.setReg_gpu (r : RegNum) (v : Word) : (s.setReg r v).gpu = s.gpu := rfl
@[simp] theorem State.setReg_ramSize (r : RegNum) (v : Word) : (s.setReg r v).ramSize = s.ramSize := rfl
@[simp] theorem State.setReg_progBase (r : RegNum) (v : Word) : (s.setReg r v).progBase = s.progBase := rfl
@[simp] theorem State.setReg_prog (r : RegNum) (v : Word) : (s.setReg r v).prog = s.prog := rfl

@[simp] theorem State.setPc_regs (n : Nat) : (s.setPc n).regs = s.regs := rfl
@[simp] theorem State.setPc_pc (n : Nat) : (s.setPc n).pc = n := rfl
@[simp] theorem State.setPc_ram (n : Nat) : (s.setPc n).ram = s.ram := rfl
@[simp] theorem State.setPc_status (n : Nat) : (s.setPc n).status = s.status := rfl
@[simp] theorem State.setPc_keyboard (n : Nat) : (s.setPc n).keyboard = s.keyboard := rfl
@[simp] theorem State.setPc_gpu (n : Nat) : (s.setPc n).gpu = s.gpu := rfl
@[simp] theorem State.setPc_ramSize (n : Nat) : (s.setPc n).ramSize = s.ramSize := rfl
@[simp] theorem State.setPc_progBase (n : Nat) : (s.setPc n).progBase = s.progBase := rfl
@[simp] theorem State.setPc_prog (n : Nat) : (s.setPc n).prog = s.prog := rfl

@[simp] theorem State.advance_regs : s.advance.regs = s.regs := rfl
@[simp] theorem State.advance_pc : s.advance.pc = s.pc + 1 := rfl
@[simp] theorem State.advance_ram : s.advance.ram = s.ram := rfl
@[simp] theorem State.advance_status : s.advance.status = s.status := rfl
@[simp] theorem State.advance_keyboard : s.advance.keyboard = s.keyboard := rfl
@[simp] theorem State.advance_gpu : s.advance.gpu = s.gpu := rfl
@[simp] theorem State.advance_ramSize : s.advance.ramSize = s.ramSize := rfl
@[simp] theorem State.advance_progBase : s.advance.progBase = s.progBase := rfl
@[simp] theorem State.advance_prog : s.advance.prog = s.prog := rfl

@[simp] theorem State.setStatus_regs (v : Status) : (s.setStatus v).regs = s.regs := rfl
@[simp] theorem State.setStatus_pc (v : Status) : (s.setStatus v).pc = s.pc := rfl
@[simp] theorem State.setStatus_ram (v : Status) : (s.setStatus v).ram = s.ram := rfl
@[simp] theorem State.setStatus_status (v : Status) : (s.setStatus v).status = v := rfl
@[simp] theorem State.setStatus_keyboard (v : Status) : (s.setStatus v).keyboard = s.keyboard := rfl
@[simp] theorem State.setStatus_gpu (v : Status) : (s.setStatus v).gpu = s.gpu := rfl
@[simp] theorem State.setStatus_ramSize (v : Status) : (s.setStatus v).ramSize = s.ramSize := rfl
@[simp] theorem State.setStatus_progBase (v : Status) : (s.setStatus v).progBase = s.progBase := rfl
@[simp] theorem State.setStatus_prog (v : Status) : (s.setStatus v).prog = s.prog := rfl

@[simp] theorem State.setGpu_regs (g : Gpu) : (s.setGpu g).regs = s.regs := rfl
@[simp] theorem State.setGpu_pc (g : Gpu) : (s.setGpu g).pc = s.pc := rfl
@[simp] theorem State.setGpu_ram (g : Gpu) : (s.setGpu g).ram = s.ram := rfl
@[simp] theorem State.setGpu_status (g : Gpu) : (s.setGpu g).status = s.status := rfl
@[simp] theorem State.setGpu_keyboard (g : Gpu) : (s.setGpu g).keyboard = s.keyboard := rfl
@[simp] theorem State.setGpu_gpu (g : Gpu) : (s.setGpu g).gpu = some g := rfl
@[simp] theorem State.setGpu_ramSize (g : Gpu) : (s.setGpu g).ramSize = s.ramSize := rfl
@[simp] theorem State.setGpu_progBase (g : Gpu) : (s.setGpu g).progBase = s.progBase := rfl
@[simp] theorem State.setGpu_prog (g : Gpu) : (s.setGpu g).prog = s.prog := rfl

/-! ## Registers -/

@[simp] theorem State.getReg_setReg_self (r : RegNum) (v : Word) : (s.setReg r v).getReg r = v := by
  simp [State.getReg]

theorem State.getReg_setReg_ne (r q : RegNum) (v : Word) (h : q ≠ r) : (s.setReg r v).getReg q = s.getReg q := by
  have : r.val ≠ q.val := fun e => h (Fin.ext e.symm)
  simp [State.getReg, Vector.getElem_set_ne _ _ this]

theorem State.getReg_setReg (r q : RegNum) (v : Word) :
    (s.setReg r v).getReg q = if q = r then v else s.getReg q := by
  by_cases h : q = r
  · subst h; simp
  · simp [h, State.getReg_setReg_ne]

@[simp] theorem State.getReg_setPc (n : Nat) (q : RegNum) : (s.setPc n).getReg q = s.getReg q := rfl
@[simp] theorem State.getReg_advance (q : RegNum) : s.advance.getReg q = s.getReg q := rfl
@[simp] theorem State.getReg_setStatus (v : Status) (q : RegNum) : (s.setStatus v).getReg q = s.getReg q := rfl
@[simp] theorem State.getReg_setGpu (g : Gpu) (q : RegNum) : (s.setGpu g).getReg q = s.getReg q := rfl

end Sys2Proof.Machine
end

