-- ==== Sys2Proof/Laws/Ops.lean ====
section
/-! SUPPORT. For each shared operation, once, what it can answer. -/

namespace Sys2Proof.Machine

/-! ## Exceptions -/

theorem raise_eq (e : Exception) (s : State) : raise e s = .next (s.setStatus (.faulted e)) := rfl

@[simp] theorem complete_ok (s t : State) : complete s (.ok t) = .next t := rfl

@[simp] theorem complete_error (s : State) (e : Exception) :
    complete s (.error e) = .next (s.setStatus (.faulted e)) := rfl

/-- An instruction that can only raise always has a next state: its own, or the exception taken. -/
theorem complete_next_iff (s t : State) (r : Except Exception State) :
    complete s r = .next t ↔ r = .ok t ∨ ∃ e, r = .error e ∧ t = s.setStatus (.faulted e) := by
  cases r <;> simp [eq_comm]

@[simp] theorem complete_ne_fault (s : State) (r : Except Exception State) (f : Fault) : complete s r ≠ .fault f := by
  cases r <;> exact fun h => nomatch h

@[simp] theorem complete_ne_refused (s : State) (r : Except Exception State) (q : Refusal) : complete s r ≠ .refused q := by
  cases r <;> exact fun h => nomatch h

theorem complete_exists_next (s : State) (r : Except Exception State) : ∃ t, complete s r = .next t := by
  cases r <;> simp

/-! ## Operands -/

@[simp] theorem val_reg (n : RegNum) (s : State) : val (.reg n) s = s.getReg n := rfl
@[simp] theorem val_imm (v : Word) (s : State) : val (.imm v) s = v := rfl
@[simp] theorem regof_reg (n : RegNum) : regof (.reg n) = .ok n := rfl
@[simp] theorem regof_imm (v : Word) : regof (.imm v) = .error .operandTypeError := rfl

/-- An operand is read from the registers alone. -/
theorem val_congr (op : Operand) {s t : State} (h : s.regs = t.regs) : val op s = val op t := by
  cases op <;> simp [State.getReg, h]

/-! ## RAM -/

theorem State.memRead_of_lt {s : State} {a : Word} (h : a.toNat < s.ramSize) :
    s.memRead a = .ok (s.ram.read a.toNat) := by simp [State.memRead, h]

theorem State.memRead_of_le {s : State} {a : Word} (h : s.ramSize ≤ a.toNat) :
    s.memRead a = .error (.memRangeFault a) := by simp [State.memRead, Nat.not_lt.mpr h]

theorem State.memWrite_of_lt {s : State} {a : Word} (v : Word) (h : a.toNat < s.ramSize) :
    s.memWrite a v = .ok { s with ram := s.ram.write a.toNat v } := by simp [State.memWrite, h]

theorem State.memWrite_of_le {s : State} {a : Word} (v : Word) (h : s.ramSize ≤ a.toNat) :
    s.memWrite a v = .error (.memRangeFault a) := by simp [State.memWrite, Nat.not_lt.mpr h]

/-! ## Program store -/

/-- A fetch answers a term of the program, and only at the address it stands at. -/
theorem State.fetch_ok_iff (s : State) (a : Nat) (i : Instr) :
    s.fetch a = .ok i ↔ s.progBase ≤ a ∧ s.prog[a - s.progBase]? = some i := by
  unfold State.fetch
  by_cases h : s.progBase ≤ a
  · cases hi : s.prog[a - s.progBase]? <;> simp [h]
  · simp [h]

/-- A fetch that fails names the address it failed at. -/
theorem State.fetch_error_iff (s : State) (a : Nat) (e : Exception) :
    s.fetch a = .error e ↔ e = .fetchFault a ∧ (a < s.progBase ∨ s.progBase + s.prog.length ≤ a) := by
  unfold State.fetch
  by_cases h : s.progBase ≤ a
  · cases hi : s.prog[a - s.progBase]? with
    | none =>
      have := List.getElem?_eq_none_iff.mp hi
      simp only [h, if_true, Except.error.injEq, eq_comm (a := e)]
      exact ⟨fun x => ⟨x, Or.inr (by omega)⟩, fun x => x.1⟩
    | some i =>
      have := (List.getElem?_eq_some_iff.mp hi).1
      simp only [h, if_true, reduceCtorEq, false_iff, not_and]
      omega
  · simp only [h, if_false, Except.error.injEq, eq_comm (a := e)]
    exact ⟨fun x => ⟨x, Or.inl (by omega)⟩, fun x => x.1⟩

end Sys2Proof.Machine
end

