-- ==== Sys2Proof/Laws/Gpu.lean ====
section
/-! SUPPORT. What the GPU unit's operations do: pixels of a buffer, slots, operand ranges, and the shape of a GPU
instruction. -/

namespace Sys2Proof.Machine

/-! ## Pixels -/

@[simp] theorem tabulate_getElem {α : Type} (f : Fin 32 → α) (i : Fin 32) : (tabulate f)[i] = f i := by
  simp only [tabulate, Fin.getElem_fin, Vector.getElem_mk, List.getElem_toArray, List.getElem_ofFn]

@[simp] theorem pixel_ofPixels (f : Coord → Coord → Bool) (x y : Coord) :
    Buffer.pixel (Buffer.ofPixels f) x y = f x y := by
  simp only [Buffer.pixel, Buffer.ofPixels, tabulate_getElem]

theorem pixel_fill (e : Buffer) (r : Rect) (v : Bool) (x y : Coord) :
    Buffer.pixel (Buffer.fill e r v) x y = if r.contains x y then v else Buffer.pixel e x y := by
  simp [Buffer.fill]

theorem pixel_drawLine (e : Buffer) (a b c d x y : Coord) :
    Buffer.pixel (Buffer.drawLine e a b c d) x y = if Config.line a b c d x y then true else Buffer.pixel e x y := by
  simp [Buffer.drawLine]

theorem pixel_scroll (e : Buffer) (dx dy : Int) (x y : Coord) :
    Buffer.pixel (Buffer.scroll e dx dy) x y = Buffer.pixelAt e ((x.val : Int) - dx) ((y.val : Int) - dy) := by
  simp [Buffer.scroll]

/-- At the integer coordinates of a pixel, `pixelAt` is that pixel. -/
theorem pixelAt_coord (e : Buffer) (x y : Coord) : Buffer.pixelAt e (x.val : Int) (y.val : Int) = Buffer.pixel e x y := by
  have := x.isLt
  have := y.isLt
  have h : ((0 : Int) ≤ x.val ∧ (x.val : Int) ≤ 31) ∧ ((0 : Int) ≤ y.val ∧ (y.val : Int) ≤ 31) := by omega
  simp [Buffer.pixelAt, h]

/-- Outside the buffer `pixelAt` is 0. -/
theorem pixelAt_outside (e : Buffer) (x y : Int) (h : ¬ ((0 ≤ x ∧ x ≤ 31) ∧ (0 ≤ y ∧ y ≤ 31))) :
    Buffer.pixelAt e x y = false := by
  simp only [Buffer.pixelAt, h, dif_neg, not_false_iff]

/-! ## Buffers and slots -/

@[simp] theorem Gpu.editBuffer_setEditBuffer (g : Gpu) (e : Buffer) : (g.setEditBuffer e).editBuffer = e := by
  simp [Gpu.editBuffer, Gpu.setEditBuffer]

theorem Gpu.setEditBuffer_buf_ne (g : Gpu) (e : Buffer) (k : Fin 2) (h : k ≠ g.edit) :
    (g.setEditBuffer e).buf[k] = g.buf[k] := by
  have : g.edit.val ≠ k.val := fun x => h (Fin.ext x.symm)
  simp [Gpu.setEditBuffer, Vector.getElem_set_ne _ _ this]

@[simp] theorem Gpu.setEditBuffer_sprite (g : Gpu) (e : Buffer) : (g.setEditBuffer e).sprite = g.sprite := rfl
@[simp] theorem Gpu.setEditBuffer_text (g : Gpu) (e : Buffer) : (g.setEditBuffer e).text = g.text := rfl
@[simp] theorem Gpu.setEditBuffer_edit (g : Gpu) (e : Buffer) : (g.setEditBuffer e).edit = g.edit := rfl
@[simp] theorem Gpu.setEditBuffer_disp (g : Gpu) (e : Buffer) : (g.setEditBuffer e).disp = g.disp := rfl

@[simp] theorem Gpu.setSprite_buf (g : Gpu) (i : Fin 32) (d : SpriteData) : (g.setSprite i d).buf = g.buf := rfl
@[simp] theorem Gpu.setSprite_text (g : Gpu) (i : Fin 32) (d : SpriteData) : (g.setSprite i d).text = g.text := rfl
@[simp] theorem Gpu.setSprite_edit (g : Gpu) (i : Fin 32) (d : SpriteData) : (g.setSprite i d).edit = g.edit := rfl
@[simp] theorem Gpu.setSprite_disp (g : Gpu) (i : Fin 32) (d : SpriteData) : (g.setSprite i d).disp = g.disp := rfl

theorem Gpu.spriteSlot_setSprite (g : Gpu) (i j : Fin 32) (d : SpriteData) :
    (g.setSprite i d).spriteSlot j = if j = i then d else g.spriteSlot j := by
  by_cases h : j = i
  · subst h; simp [Gpu.spriteSlot, Gpu.setSprite]
  · have : i.val ≠ j.val := fun x => h (Fin.ext x.symm)
    simp [Gpu.spriteSlot, Gpu.setSprite, h, Vector.getElem_set_ne _ _ this]

@[simp] theorem Gpu.setText_buf (g : Gpu) (i : Fin 16384) (c : CharCode) : (g.setText i c).buf = g.buf := rfl
@[simp] theorem Gpu.setText_sprite (g : Gpu) (i : Fin 16384) (c : CharCode) : (g.setText i c).sprite = g.sprite := rfl
@[simp] theorem Gpu.setText_edit (g : Gpu) (i : Fin 16384) (c : CharCode) : (g.setText i c).edit = g.edit := rfl
@[simp] theorem Gpu.setText_disp (g : Gpu) (i : Fin 16384) (c : CharCode) : (g.setText i c).disp = g.disp := rfl

theorem Gpu.textSlot_setText (g : Gpu) (i : Fin 16384) (j : Nat) (c : CharCode) :
    (g.setText i c).textSlot j = if j = i.val then c else g.textSlot j := Cells.read_write _ _ _ _ _

/-! ## Operand ranges -/

theorem gpuIndex_of_lt {p n : Nat} {w : Word} (h : w.toNat < n) : gpuIndex p n w = .ok ⟨w.toNat, h⟩ := by
  simp [gpuIndex, h]

theorem gpuIndex_of_le {p n : Nat} {w : Word} (h : n ≤ w.toNat) : gpuIndex p n w = .error (.gpuRangeFault p) := by
  simp [gpuIndex, Nat.not_lt.mpr h]

theorem gpuExtent_of_range {p : Nat} {w : Word} (h : 1 ≤ w.toNat ∧ w.toNat ≤ 32) :
    gpuExtent p w = .ok w.toNat := by
  simp [gpuExtent, h]

theorem gpuExtent_of_not_range {p : Nat} {w : Word} (h : ¬ (1 ≤ w.toNat ∧ w.toNat ≤ 32)) :
    gpuExtent p w = .error (.gpuRangeFault p) := by
  simp only [gpuExtent, h, if_false]

/-! ## The shape of a GPU instruction -/

theorem gpuStep_none {s : State} (h : s.gpu = none) (f : Gpu → Except Exception Gpu) :
    gpuStep s f = .next s.advance := by
  simp [gpuStep, h]

theorem gpuStep_ok {s : State} {g g' : Gpu} {f : Gpu → Except Exception Gpu} (h : s.gpu = some g) (hf : f g = .ok g') :
    gpuStep s f = .next (s.setGpu g').advance := by
  simp [gpuStep, h, hf, Except.map]

theorem gpuStep_error {s : State} {g : Gpu} {e : Exception} {f : Gpu → Except Exception Gpu} (h : s.gpu = some g)
    (hf : f g = .error e) : gpuStep s f = .next (s.setStatus (.faulted e)) := by
  simp [gpuStep, h, hf, Except.map]

@[simp] theorem gpuStep_ne_fault (s : State) (g : Gpu → Except Exception Gpu) (f : Fault) : gpuStep s g ≠ .fault f := by
  unfold gpuStep; split <;> simp

@[simp] theorem gpuStep_ne_refused (s : State) (g : Gpu → Except Exception Gpu) (q : Refusal) :
    gpuStep s g ≠ .refused q := by
  unfold gpuStep; split <;> simp

/-- Everything a GPU instruction can do: advance with no GPU attached, give the unit a new state, or raise. -/
theorem gpuStep_cases {s t : State} {f : Gpu → Except Exception Gpu} (h : gpuStep s f = .next t) :
    (s.gpu = none ∧ t = s.advance) ∨
    (∃ g g', s.gpu = some g ∧ f g = .ok g' ∧ t = (s.setGpu g').advance) ∨
    (∃ g e, s.gpu = some g ∧ f g = .error e ∧ t = s.setStatus (.faulted e)) := by
  cases hg : s.gpu with
  | none => exact .inl ⟨rfl, by simpa [gpuStep_none hg] using h.symm⟩
  | some g =>
    cases hf : f g with
    | ok g' => exact .inr (.inl ⟨g, g', rfl, hf, by simpa [gpuStep_ok hg hf] using h.symm⟩)
    | error e => exact .inr (.inr ⟨g, e, rfl, hf, by simpa [gpuStep_error hg hf] using h.symm⟩)

end Sys2Proof.Machine
end

