-- ==== Sys2Proof/Laws/Exec.lean ====
section
/-! SUPPORT. What executing one instruction can do, said once: the cases of `Effect`. Whole-machine claims follow from these
without unfolding a meaning. -/

namespace Sys2Proof.Machine

/-- Everything an instruction `i` executed in `s` can leave. -/
inductive Effect (i : Instr) (s : State) : State → Prop where
  /-- It raised an exception (R185). -/
  | raised (e : Exception) : Effect i s (s.setStatus (.faulted e))
  /-- It wrote registers among its destinations, and the program counter. -/
  | registers (regs : Vector Word 32) (pc : Nat) (hregs : RegsKept s { s with regs := regs, pc := pc } (destRegs i))
      (hpc : (pc = s.pc + 1) ∨ (pc < 65536 ∧ isJumpMnemonic i.mnemonic = true)) :
      Effect i s { s with regs := regs, pc := pc }
  /-- It stored one word in the RAM cell its address operand names, taking no character from the keyboard or the next. -/
  | stored (a v : Word) (keys : List KeyCode) (ha : a.toNat < s.ramSize) (hto : storesTo i s = [a.toNat])
      (hkeys : keys = s.keyboard ∨ (i.mnemonic = .keyin ∧ ∃ c, s.keyboard = c :: keys)) :
      Effect i s { s with ram := s.ram.write a.toNat v, keyboard := keys, pc := s.pc + 1 }
  /-- It is HALT (R152). -/
  | halted (hi : i = .halt) : Effect i s (s.setStatus .halted)
  /-- It gave the GPU unit a new state (R161). -/
  | drew (g h : Gpu) (hg : s.gpu = some g) (hwf : g.wf = true → h.wf = true) (hedit : h.edit = g.edit)
      (hdisp : h.disp = g.disp) (hi : isGpuMnemonic i.mnemonic = true) : Effect i s (s.setGpu h).advance

/-! ## The shapes -/

theorem effect_complete {i : Instr} {s t : State} {r : Except Exception State} (h : complete s r = .next t)
    (hr : ∀ u, r = .ok u → Effect i s u) : Effect i s t := by
  rcases (complete_next_iff s t r).mp h with h | ⟨e, -, rfl⟩
  · exact hr t h
  · exact .raised e

/-- One register written, then the next instruction. -/
theorem effect_setReg (i : Instr) (s : State) (r : RegNum) (v : Word) (hr : r ∈ destRegs i) :
    Effect i s (s.setReg r v).advance := by
  refine Effect.registers (s.regs.set r v) (s.pc + 1) (fun q hq => ?_) (.inl rfl)
  exact State.getReg_setReg_ne s r q v fun e => hq (e ▸ hr)

/-- Two registers written, then the next instruction. -/
theorem effect_setAluPair (i : Instr) (s : State) (v w : Word) (hr : destRegs i = [0, 1]) :
    Effect i s (setAluPair s v w).advance := by
  refine Effect.registers ((s.regs.set 0 v).set 1 w) (s.pc + 1) (fun q hq => ?_) (.inl rfl)
  simp only [hr, List.mem_cons, List.not_mem_nil, or_false, not_or] at hq
  exact (State.getReg_setReg_ne (s.setReg 0 v) 1 q w hq.2).trans (State.getReg_setReg_ne s 0 q v hq.1)

/-- The program counter alone. -/
theorem effect_pc (i : Instr) (s : State) (pc : Nat)
    (hpc : pc = s.pc + 1 ∨ (pc < 65536 ∧ isJumpMnemonic i.mnemonic = true)) : Effect i s (s.setPc pc) :=
  Effect.registers s.regs pc (fun _ _ => rfl) hpc

theorem effect_aluToR0 {i : Instr} {s t : State} {f : Word → Word → Word} {a b : Operand} (hi : destRegs i = [0])
    (h : aluToR0 f a b s = .next t) : Effect i s t := by
  cases h
  exact effect_setReg i s 0 _ (by simp [hi])

theorem effect_jumpIf {i : Instr} {s t : State} {c : Bool} {target : Operand}
    (hi : isJumpMnemonic i.mnemonic = true) (h : jumpIf c target s = .next t) : Effect i s t := by
  cases h
  cases c
  · exact effect_pc i s (s.pc + 1) (.inl rfl)
  · exact effect_pc i s _ (.inr ⟨(val target s).isLt, hi⟩)

theorem effect_gpuStep {i : Instr} {s t : State} {f : Gpu → Except Exception Gpu}
    (hi : isGpuMnemonic i.mnemonic = true)
    (hf : ∀ g h, f g = .ok h → (g.wf = true → h.wf = true) ∧ h.edit = g.edit ∧ h.disp = g.disp)
    (h : gpuStep s f = .next t) : Effect i s t := by
  rcases gpuStep_cases h with ⟨-, rfl⟩ | ⟨g, g', hg, hfg, rfl⟩ | ⟨g, e, -, -, rfl⟩
  · exact effect_pc i s (s.pc + 1) (.inl rfl)
  · obtain ⟨h1, h2, h3⟩ := hf g g' hfg
    exact .drew g g' hg h1 h2 h3 hi
  · exact .raised e

/-- A step of the unit that only replaces the edit buffer keeps its form and its selection. -/
theorem gpu_setEditBuffer_keeps (g h : Gpu) (e : Buffer) (hh : g.setEditBuffer e = h) :
    (g.wf = true → h.wf = true) ∧ h.edit = g.edit ∧ h.disp = g.disp := by
  subst hh; exact ⟨id, rfl, rfl⟩

theorem Except.bind_ok_iff {α β : Type} {x : Except Exception α} {f : α → Except Exception β} {b : β} :
    (x >>= f) = .ok b ↔ ∃ a, x = .ok a ∧ f a = .ok b := by
  cases x <;> simp [bind, Except.bind]

/-! ## Each instruction -/

theorem effect_load {src dstAddr : Operand} {s t : State} (h : exec (.load src dstAddr) s = .next t) :
    Effect (.load src dstAddr) s t := by
  refine effect_complete h fun u hu => ?_
  rcases Nat.lt_or_ge (val dstAddr s).toNat s.ramSize with ha | ha
  · rw [State.memWrite_of_lt _ ha] at hu
    cases hu
    exact .stored _ _ _ ha rfl (.inl rfl)
  · rw [State.memWrite_of_le _ ha] at hu
    cases hu

theorem effect_read {srcAddr dst : Operand} {s t : State} (h : exec (.read srcAddr dst) s = .next t) :
    Effect (.read srcAddr dst) s t := by
  refine effect_complete h fun u hu => ?_
  obtain ⟨d, hd, hu⟩ := Except.bind_ok_iff.mp hu
  obtain ⟨v, -, hu⟩ := Except.bind_ok_iff.mp hu
  cases hu
  cases dst with
  | reg n => cases hd; exact effect_setReg _ s d v (List.mem_singleton.mpr rfl)
  | imm w => cases hd

theorem effect_mvr {src dst : Operand} {s t : State} (h : exec (.mvr src dst) s = .next t) :
    Effect (.mvr src dst) s t := by
  refine effect_complete h fun u hu => ?_
  cases dst with
  | reg n => cases hu; exact effect_setReg _ s n _ (by simp [destRegs, regList])
  | imm w => cases hu

theorem effect_mvm {srcAddr dstAddr : Operand} {s t : State} (h : exec (.mvm srcAddr dstAddr) s = .next t) :
    Effect (.mvm srcAddr dstAddr) s t := by
  refine effect_complete h fun u hu => ?_
  obtain ⟨v, -, hu⟩ := Except.bind_ok_iff.mp hu
  obtain ⟨w, hw, hu⟩ := Except.bind_ok_iff.mp hu
  rcases Nat.lt_or_ge (val dstAddr s).toNat s.ramSize with ha | ha
  · rw [State.memWrite_of_lt _ ha] at hw
    cases hw; cases hu
    exact .stored _ _ _ ha rfl (.inl rfl)
  · rw [State.memWrite_of_le _ ha] at hw
    cases hw

theorem effect_mult {a b : Operand} {s t : State} (h : exec (.mult a b) s = .next t) : Effect (.mult a b) s t := by
  cases h; exact effect_setAluPair _ s _ _ rfl

theorem effect_div {a b : Operand} {s t : State} (h : exec (.div a b) s = .next t) : Effect (.div a b) s t := by
  change execDiv a b s = _ at h
  by_cases hb : val b s = 0
  · rw [execDiv, if_pos hb, raise_eq] at h
    cases h; exact .raised _
  · rw [execDiv, if_neg hb] at h
    cases h; exact effect_setAluPair _ s _ _ rfl

theorem effect_not {a : Operand} {s t : State} (h : exec (.not a) s = .next t) : Effect (.not a) s t := by
  refine effect_complete h fun u hu => ?_
  cases a with
  | reg n => cases hu; exact effect_setReg _ s n _ (by simp [destRegs, regList])
  | imm w => cases hu

theorem effect_jmp {target : Operand} {s t : State} (h : exec (.jmp target) s = .next t) :
    Effect (.jmp target) s t := by
  cases h; exact effect_pc _ s _ (.inr ⟨(val target s).isLt, rfl⟩)

theorem effect_jal {target : Operand} {s t : State} (h : exec (.jal target) s = .next t) :
    Effect (.jal target) s t := by
  change execJal target s = _ at h
  by_cases ht : target = .reg linkReg
  · rw [execJal, if_pos ht] at h; cases h
  · rw [execJal, if_neg ht] at h
    cases h
    refine Effect.registers (s.regs.set 2 _) _ (fun q hq => ?_) (.inr ⟨(val target s).isLt, rfl⟩)
    exact State.getReg_setReg_ne s 2 q _ fun e => hq (by simp [destRegs, e])

theorem effect_keyin {addr : Operand} {s t : State} (h : exec (.keyin addr) s = .next t) :
    Effect (.keyin addr) s t := by
  change execKeyin addr s = _ at h
  by_cases ha : (val addr s).toNat < s.ramSize
  · rw [execKeyin, if_pos ha] at h
    cases hk : s.keyboard with
    | nil =>
      simp only [State.keyNext, hk] at h
      cases h
    | cons c cs =>
      have hw := State.memWrite_of_lt (s := { s with keyboard := cs }) (zext16 c) ha
      simp only [State.keyNext, hk, hw, Except.map, complete_ok] at h
      cases h
      exact .stored _ _ _ ha rfl (.inr ⟨rfl, c, hk⟩)
  · rw [execKeyin, if_neg ha, raise_eq] at h
    cases h; exact .raised _

theorem effect_halt {s t : State} (h : exec .halt s = .next t) : Effect .halt s t := by
  cases h; exact .halted rfl

theorem effect_drline {x1 y1 x2 y2 : Operand} {s t : State} (h : exec (.drline x1 y1 x2 y2) s = .next t) :
    Effect (.drline x1 y1 x2 y2) s t := by
  refine effect_gpuStep rfl (fun g k hk => ?_) h
  obtain ⟨a, -, hk⟩ := Except.bind_ok_iff.mp hk
  obtain ⟨b, -, hk⟩ := Except.bind_ok_iff.mp hk
  obtain ⟨c, -, hk⟩ := Except.bind_ok_iff.mp hk
  obtain ⟨d, -, hk⟩ := Except.bind_ok_iff.mp hk
  cases hk; exact gpu_setEditBuffer_keeps g _ _ rfl

theorem effect_drgrd {x y width height : Operand} {s t : State} (h : exec (.drgrd x y width height) s = .next t) :
    Effect (.drgrd x y width height) s t := by
  refine effect_gpuStep rfl (fun g k hk => ?_) h
  obtain ⟨r, -, hk⟩ := Except.bind_ok_iff.mp hk
  cases hk; exact gpu_setEditBuffer_keeps g _ _ rfl

theorem effect_clrgrid {x y width height : Operand} {s t : State}
    (h : exec (.clrgrid x y width height) s = .next t) : Effect (.clrgrid x y width height) s t := by
  refine effect_gpuStep rfl (fun g k hk => ?_) h
  obtain ⟨r, -, hk⟩ := Except.bind_ok_iff.mp hk
  cases hk; exact gpu_setEditBuffer_keeps g _ _ rfl

theorem effect_ldspr {id data : Operand} {s t : State} (h : exec (.ldspr id data) s = .next t) :
    Effect (.ldspr id data) s t := by
  refine effect_gpuStep rfl (fun g k hk => ?_) h
  obtain ⟨i, -, hk⟩ := Except.bind_ok_iff.mp hk
  obtain ⟨d, -, hk⟩ := Except.bind_ok_iff.mp hk
  cases hk; exact ⟨fun hg => hg, rfl, rfl⟩

theorem effect_drspr {id x y : Operand} {s t : State} (h : exec (.drspr id x y) s = .next t) :
    Effect (.drspr id x y) s t := by
  refine effect_gpuStep rfl (fun g k hk => ?_) h
  obtain ⟨i, -, hk⟩ := Except.bind_ok_iff.mp hk
  obtain ⟨a, -, hk⟩ := Except.bind_ok_iff.mp hk
  obtain ⟨b, -, hk⟩ := Except.bind_ok_iff.mp hk
  cases hk; exact gpu_setEditBuffer_keeps g _ _ rfl

theorem effect_ldtxt {id charCode : Operand} {s t : State} (h : exec (.ldtxt id charCode) s = .next t) :
    Effect (.ldtxt id charCode) s t := by
  refine effect_gpuStep rfl (fun g k hk => ?_) h
  obtain ⟨i, -, hk⟩ := Except.bind_ok_iff.mp hk
  obtain ⟨c, -, hk⟩ := Except.bind_ok_iff.mp hk
  cases hk
  refine ⟨fun hg => ?_, rfl, rfl⟩
  rw [Gpu.wf, Bool.and_eq_true] at hg ⊢
  exact ⟨Cells.wf_write _ _ _ _ hg.1, Cells.below_write _ _ _ _ _ hg.2 i.isLt⟩

theorem effect_drtxt {id x y : Operand} {s t : State} (h : exec (.drtxt id x y) s = .next t) :
    Effect (.drtxt id x y) s t := by
  refine effect_gpuStep rfl (fun g k hk => ?_) h
  obtain ⟨i, -, hk⟩ := Except.bind_ok_iff.mp hk
  obtain ⟨a, -, hk⟩ := Except.bind_ok_iff.mp hk
  obtain ⟨b, -, hk⟩ := Except.bind_ok_iff.mp hk
  cases hk; exact gpu_setEditBuffer_keeps g _ _ rfl

theorem effect_scrlbfr {offx offy : Operand} {s t : State} (h : exec (.scrlbfr offx offy) s = .next t) :
    Effect (.scrlbfr offx offy) s t := by
  refine effect_gpuStep rfl (fun g k hk => ?_) h
  cases hk; exact gpu_setEditBuffer_keeps g _ _ rfl

/-- Whatever instruction is executed, its next state is one of the cases of `Effect`. -/
theorem exec_effect (i : Instr) (s t : State) (h : exec i s = .next t) : Effect i s t := by
  cases i with
  | load src dstAddr => exact effect_load h
  | read srcAddr dst => exact effect_read h
  | mvr src dst => exact effect_mvr h
  | mvm srcAddr dstAddr => exact effect_mvm h
  | add a b => exact effect_aluToR0 rfl h
  | sub a b => exact effect_aluToR0 rfl h
  | mult a b => exact effect_mult h
  | div a b => exact effect_div h
  | shl a b => exact effect_aluToR0 rfl h
  | shr a b => exact effect_aluToR0 rfl h
  | shlr a b => exact effect_aluToR0 rfl h
  | and a b => exact effect_aluToR0 rfl h
  | or a b => exact effect_aluToR0 rfl h
  | xor a b => exact effect_aluToR0 rfl h
  | not a => exact effect_not h
  | jmp target => exact effect_jmp h
  | jal target => exact effect_jal h
  | jz target cond => exact effect_jumpIf rfl h
  | jnz target cond => exact effect_jumpIf rfl h
  | jbt target x y => exact effect_jumpIf rfl h
  | keyin addr => exact effect_keyin h
  | halt => exact effect_halt h
  | drline x1 y1 x2 y2 => exact effect_drline h
  | drgrd x y width height => exact effect_drgrd h
  | clrgrid x y width height => exact effect_clrgrid h
  | ldspr id data => exact effect_ldspr h
  | drspr id x y => exact effect_drspr h
  | ldtxt id charCode => exact effect_ldtxt h
  | drtxt id x y => exact effect_drtxt h
  | scrlbfr offx offy => exact effect_scrlbfr h

/-! ## No step -/

theorem execKeyin_fault_iff (addr : Operand) (s : State) (f : Fault) :
    execKeyin addr s = .fault f ↔ f = .blocked ∧ s.keyboard = [] ∧ (val addr s).toNat < s.ramSize := by
  by_cases ha : (val addr s).toNat < s.ramSize
  · cases hk : s.keyboard with
    | nil => simp [execKeyin, State.keyNext, hk, ha, eq_comm]
    | cons c cs => simp [execKeyin, State.keyNext, hk, ha]
  · simp [execKeyin, ha, raise]

/-- No instruction is without a step but KEYIN, its address inside RAM, while the keyboard has no character (R150). -/
theorem exec_fault_iff (i : Instr) (s : State) (f : Fault) :
    exec i s = .fault f ↔
      f = .blocked ∧ s.keyboard = [] ∧ ∃ addr, i = .keyin addr ∧ (val addr s).toNat < s.ramSize := by
  cases i with
  | keyin addr => simpa [exec] using execKeyin_fault_iff addr s f
  | div a b => simp only [exec, execDiv]; split <;> simp [raise]
  | jal target => simp only [exec, execJal]; split <;> simp
  | _ =>
    simp [exec, execLoad, execRead, execMvr, execMvm, execAdd, execSub, execMult, execShl, execShr, execShlr, execAnd,
      execOr, execXor, execNot, execJmp, execJz, execJnz, execJbt, execHalt, execDrline, execDrgrd, execClrgrid,
      execLdspr, execDrspr, execLdtxt, execDrtxt, execScrlbfr, aluToR0, jumpIf]

/-- No instruction is refused but JAL with the register operand 2 (R84 g). -/
theorem exec_refused_iff (i : Instr) (s : State) (q : Refusal) :
    exec i s = .refused q ↔ q = .jalLinkOperand ∧ i = .jal (.reg linkReg) := by
  cases i with
  | keyin addr =>
    simp only [exec, execKeyin]
    split
    · split <;> simp
    · simp [raise]
  | div a b => simp only [exec, execDiv]; split <;> simp [raise]
  | jal target => simp only [exec, execJal]; split <;> simp_all [eq_comm]
  | _ =>
    simp [exec, execLoad, execRead, execMvr, execMvm, execAdd, execSub, execMult, execShl, execShr, execShlr, execAnd,
      execOr, execXor, execNot, execJmp, execJz, execJnz, execJbt, execHalt, execDrline, execDrgrd, execClrgrid,
      execLdspr, execDrspr, execLdtxt, execDrtxt, execScrlbfr, aluToR0, jumpIf]

/-! ## The step -/

/-- A step to a next state comes from a running machine: it executed the instruction fetched, or the fetch failed. -/
theorem step_next_cases {s t : State} (h : step s = .next t) :
    s.status = .running ∧
      ((∃ i, s.fetch s.pc = .ok i ∧ exec i s = .next t) ∨
        (∃ e, s.fetch s.pc = .error e ∧ t = s.setStatus (.faulted e))) := by
  unfold step at h
  cases hs : s.status with
  | running =>
    simp only [hs] at h
    cases hf : s.fetch s.pc with
    | ok i => simp only [hf] at h; exact ⟨rfl, .inl ⟨i, rfl, h⟩⟩
    | error e => simp only [hf, raise_eq] at h; cases h; exact ⟨rfl, .inr ⟨e, rfl, rfl⟩⟩
  | halted => simp only [hs] at h; cases h
  | faulted e => simp only [hs] at h; cases h

end Sys2Proof.Machine
end

