-- ==== Sys2Proof/Laws/PerInstr.lean ====
section
/-! SUPPORT. A fact about every instruction as syntax, constructor by constructor: it is the term of its mnemonic and its
operands, and it has as many operands as its format has kinds (R70, R74). -/

namespace Sys2Proof.Laws.TermShape

/-- The term is rebuilt from its mnemonic and operands, one operand for each kind of its format. -/
def Statement (i : Instr) : Prop :=
  Instr.ofTerm i.mnemonic i.operands = some i ∧ i.operands.length = i.mnemonic.format.kinds.length

theorem load (src dstAddr : Operand) : Statement (.load src dstAddr) := ⟨rfl, rfl⟩
theorem read (srcAddr dst : Operand) : Statement (.read srcAddr dst) := ⟨rfl, rfl⟩
theorem mvr (src dst : Operand) : Statement (.mvr src dst) := ⟨rfl, rfl⟩
theorem mvm (srcAddr dstAddr : Operand) : Statement (.mvm srcAddr dstAddr) := ⟨rfl, rfl⟩
theorem add (a b : Operand) : Statement (.add a b) := ⟨rfl, rfl⟩
theorem sub (a b : Operand) : Statement (.sub a b) := ⟨rfl, rfl⟩
theorem mult (a b : Operand) : Statement (.mult a b) := ⟨rfl, rfl⟩
theorem div (a b : Operand) : Statement (.div a b) := ⟨rfl, rfl⟩
theorem shl (a b : Operand) : Statement (.shl a b) := ⟨rfl, rfl⟩
theorem shr (a b : Operand) : Statement (.shr a b) := ⟨rfl, rfl⟩
theorem shlr (a b : Operand) : Statement (.shlr a b) := ⟨rfl, rfl⟩
theorem and (a b : Operand) : Statement (.and a b) := ⟨rfl, rfl⟩
theorem or (a b : Operand) : Statement (.or a b) := ⟨rfl, rfl⟩
theorem xor (a b : Operand) : Statement (.xor a b) := ⟨rfl, rfl⟩
theorem not (a : Operand) : Statement (.not a) := ⟨rfl, rfl⟩
theorem jmp (target : Operand) : Statement (.jmp target) := ⟨rfl, rfl⟩
theorem jal (target : Operand) : Statement (.jal target) := ⟨rfl, rfl⟩
theorem jz (target cond : Operand) : Statement (.jz target cond) := ⟨rfl, rfl⟩
theorem jnz (target cond : Operand) : Statement (.jnz target cond) := ⟨rfl, rfl⟩
theorem jbt (target x y : Operand) : Statement (.jbt target x y) := ⟨rfl, rfl⟩
theorem keyin (addr : Operand) : Statement (.keyin addr) := ⟨rfl, rfl⟩
theorem halt : Statement .halt := ⟨rfl, rfl⟩
theorem drline (x1 y1 x2 y2 : Operand) : Statement (.drline x1 y1 x2 y2) := ⟨rfl, rfl⟩
theorem drgrd (x y width height : Operand) : Statement (.drgrd x y width height) := ⟨rfl, rfl⟩
theorem clrgrid (x y width height : Operand) : Statement (.clrgrid x y width height) := ⟨rfl, rfl⟩
theorem ldspr (id data : Operand) : Statement (.ldspr id data) := ⟨rfl, rfl⟩
theorem drspr (id x y : Operand) : Statement (.drspr id x y) := ⟨rfl, rfl⟩
theorem ldtxt (id charCode : Operand) : Statement (.ldtxt id charCode) := ⟨rfl, rfl⟩
theorem drtxt (id x y : Operand) : Statement (.drtxt id x y) := ⟨rfl, rfl⟩
theorem scrlbfr (offx offy : Operand) : Statement (.scrlbfr offx offy) := ⟨rfl, rfl⟩

end Sys2Proof.Laws.TermShape
end

