-- ==== Sys2Proof/Tests/Slice0.lean ====
section
/-! SUPPORT. Tests: decoding from the source's own lines (95_test_vectors.md part 1), one step of each instruction (part 2), what the
loader refuses, and for each obligation a state and operands that meet its hypotheses. Expected results are the vectors'. -/

namespace Sys2Proof.Tests

-- One theorem at a time: many small kernel evaluations at once each ask for a thread of their own.
set_option Elab.async false

open Sys2Proof.Machine

/-! ## Building a machine and reading an answer -/

/-- The reset machine with some registers and some RAM cells given values. -/
def machine (regs : List (RegNum × Word)) (cells : List (Nat × Word)) : State :=
  let s := regs.foldl (fun s r => s.setReg r.1 r.2) State.reset
  { s with ram := cells.foldl (fun m c => m.write c.1 c.2) s.ram }

/-- The machine at instruction address `pc`, the program beginning there. -/
def at_ (pc : Nat) (s : State) : State := { s with pc := pc }

/-- A machine with fewer RAM cells. -/
def small (s : State) : State := { s with ramSize := 0x3000 }

/-- A machine with no GPU unit. -/
def noGpu (s : State) : State := { s with gpu := none }

/-- A machine whose edit buffer has exactly these pixels white. -/
def drawn (pixels : List (Coord × Coord)) (s : State) : State :=
  { s with gpu := some (Gpu.reset.setEditBuffer (Buffer.ofPixels fun x y => pixels.contains (x, y))) }

/-- One step of the machine whose program is one instruction, standing at `pc`. -/
def run (i : Instr) (s : State) : Result := step (s.load s.pc [i])

/-- The state answered. -/
def after? : Result → Option State
  | .next t => some t
  | .fault _ => none
  | .refused _ => none

/-- Why no step exists, or nothing. -/
def stop? : Result → Option Fault
  | .next _ => none
  | .fault f => some f
  | .refused _ => none

def pc? (r : Result) : Option Nat := (after? r).map State.pc
def status? (r : Result) : Option Status := (after? r).map State.status
def reg? (r : Result) (n : RegNum) : Option Word := (after? r).map (fun t => t.getReg n)
def cell? (r : Result) (a : Nat) : Option Word := (after? r).map (fun t => t.ram.read a)
def gpu? (r : Result) : Option Gpu := (after? r).bind State.gpu
def pixel? (r : Result) (x y : Coord) : Option Bool := (gpu? r).map (fun g => Buffer.pixel g.editBuffer x y)
def sprite? (r : Result) (k : Fin 32) : Option SpriteData := (gpu? r).map (fun g => g.spriteSlot k)
def text? (r : Result) (k : Nat) : Option CharCode := (gpu? r).map (fun g => g.textSlot k)

/-- The term a line decodes to, or nothing. -/
def term? (syms : Symbols) (line : String) : Option Instr :=
  match decodeLine syms line.toList with
  | .ok i => some i
  | .error _ => none

/-- Why a line is refused, or nothing. -/
def why? (syms : Symbols) (line : String) : Option LoadError :=
  match decodeLine syms line.toList with
  | .ok _ => none
  | .error e => some e

/-- A name as the decoder holds it. -/
def name (s : String) : Text := s.toList

/-- A line of a program, with its labels. -/
def line (labels : List String) (text : String) : SourceLine := ⟨labels.map String.toList, text.toList⟩

/-- Why a program is refused, or nothing. -/
def whyProgram? (base : Nat) (lines : List SourceLine) : Option LoadError :=
  match assemble base lines with
  | .ok _ => none
  | .error e => some e

/-- The terms of a program, or nothing. -/
def program? (base : Nat) (lines : List SourceLine) : Option (List Instr) :=
  match assemble base lines with
  | .ok prog => some prog
  | .error _ => none

/-! ## Decoding: a line of the source for every constructor (S1 to S45) -/

/-- Addresses for the labels of the source's examples (the source gives none). -/
def labels : Symbols :=
  [(name "loop_start", 77), (name "func_foo", 78), (name "end_label", 79), (name "else_label", 80), (name "loop", 81),
    (name "overflow", 82)]

theorem test_decode_load :
    term? labels "LOAD  31, i:0x1000" = some (.load (.reg 31) (.imm 0x1000)) ∧
    term? labels "LOAD  i:42, i:0x1001" = some (.load (.imm 0x002A) (.imm 0x1001)) ∧
    term? labels "LOAD  5, 3" = some (.load (.reg 5) (.reg 3)) := by decide +kernel

theorem test_decode_read :
    term? labels "READ  i:0x1000, 31" = some (.read (.imm 0x1000) (.reg 31)) ∧
    term? labels "READ  3, 5" = some (.read (.reg 3) (.reg 5)) := by decide +kernel

theorem test_decode_mvr :
    term? labels "MVR  i:123, 31" = some (.mvr (.imm 0x007B) (.reg 31)) ∧
    term? labels "MVR  30, 31" = some (.mvr (.reg 30) (.reg 31)) ∧
    term? labels "MVR  0, 5" = some (.mvr (.reg 0) (.reg 5)) := by decide +kernel

theorem test_decode_mvm :
    term? labels "MVM  i:0x1000, i:0x1001" = some (.mvm (.imm 0x1000) (.imm 0x1001)) ∧
    term? labels "MVM  5, 6" = some (.mvm (.reg 5) (.reg 6)) := by decide +kernel

theorem test_decode_add :
    term? labels "ADD  5, 6" = some (.add (.reg 5) (.reg 6)) ∧
    term? labels "ADD  5, i:1" = some (.add (.reg 5) (.imm 0x0001)) := by decide +kernel

theorem test_decode_sub :
    term? labels "SUB  5, 6" = some (.sub (.reg 5) (.reg 6)) ∧
    term? labels "SUB  3, i:1" = some (.sub (.reg 3) (.imm 0x0001)) := by decide +kernel

theorem test_decode_mult :
    term? labels "MULT  5, 6" = some (.mult (.reg 5) (.reg 6)) := by decide +kernel

theorem test_decode_div :
    term? labels "DIV  5, 6" = some (.div (.reg 5) (.reg 6)) := by decide +kernel

theorem test_decode_shl :
    term? labels "SHL  5, i:2" = some (.shl (.reg 5) (.imm 0x0002)) := by decide +kernel

theorem test_decode_shr :
    term? labels "SHR  5, i:1" = some (.shr (.reg 5) (.imm 0x0001)) := by decide +kernel

theorem test_decode_shlr :
    term? labels "SHLR  5, i:3" = some (.shlr (.reg 5) (.imm 0x0003)) := by decide +kernel

theorem test_decode_and :
    term? labels "AND  5, i:0xFF00" = some (.and (.reg 5) (.imm 0xFF00)) ∧
    term? labels "AND  0, 31" = some (.and (.reg 0) (.reg 31)) := by decide +kernel

theorem test_decode_or :
    term? labels "OR  5, i:0x0001" = some (.or (.reg 5) (.imm 0x0001)) := by decide +kernel

theorem test_decode_xor :
    term? labels "XOR  5, 5" = some (.xor (.reg 5) (.reg 5)) := by decide +kernel

theorem test_decode_not :
    term? labels "NOT  5" = some (.not (.reg 5)) := by decide +kernel

theorem test_decode_jmp :
    term? labels "JMP  loop_start" = some (.jmp (.imm 77)) ∧
    term? labels "JMP  2" = some (.jmp (.reg 2)) ∧
    term? labels "JMP  i:0x0010" = some (.jmp (.imm 0x0010)) := by decide +kernel

theorem test_decode_jal :
    term? labels "JAL  func_foo" = some (.jal (.imm 78)) := by decide +kernel

theorem test_decode_jz :
    term? labels "JZ  end_label, 0" = some (.jz (.imm 79) (.reg 0)) ∧
    term? labels "JZ  else_label, 5" = some (.jz (.imm 80) (.reg 5)) := by decide +kernel

theorem test_decode_jnz :
    term? labels "JNZ  loop, 5" = some (.jnz (.imm 81) (.reg 5)) := by decide +kernel

theorem test_decode_jbt :
    term? labels "JBT  overflow, 5, i:100" = some (.jbt (.imm 82) (.reg 5) (.imm 0x0064)) := by decide +kernel

theorem test_decode_keyin :
    term? labels "KEYIN  i:0x2000" = some (.keyin (.imm 0x2000)) ∧
    term? labels "KEYIN  5" = some (.keyin (.reg 5)) := by decide +kernel

theorem test_decode_halt :
    term? labels "HALT" = some .halt ∧
    term? labels "HALT  // stop here" = some .halt := by decide +kernel

theorem test_decode_drline :
    term? labels "DRLINE  i:0, i:0, i:31, i:31" = some (.drline (.imm 0) (.imm 0) (.imm 0x001F) (.imm 0x001F)) := by decide +kernel

theorem test_decode_drgrd :
    term? labels "DRGRD  i:10, i:10, i:5, i:5" = some (.drgrd (.imm 0x000A) (.imm 0x000A) (.imm 5) (.imm 5)) := by decide +kernel

theorem test_decode_clrgrid :
    term? labels "CLRGRID  i:0, i:0, i:32, i:32" = some (.clrgrid (.imm 0) (.imm 0) (.imm 0x0020) (.imm 0x0020)) := by decide +kernel

theorem test_decode_ldspr :
    term? labels "LDSPR  i:1, i:0x7FFF" = some (.ldspr (.imm 1) (.imm 0x7FFF)) := by decide +kernel

theorem test_decode_drspr :
    term? labels "DRSPR  i:1, i:10, i:10" = some (.drspr (.imm 1) (.imm 0x000A) (.imm 0x000A)) := by decide +kernel

theorem test_decode_ldtxt :
    term? labels "LDTXT  i:0, i:7" = some (.ldtxt (.imm 0) (.imm 7)) ∧
    term? labels "LDTXT  i:1, i:4" = some (.ldtxt (.imm 1) (.imm 4)) := by decide +kernel

theorem test_decode_drtxt :
    term? labels "DRTXT  i:0, i:2, i:10" = some (.drtxt (.imm 0) (.imm 2) (.imm 0x000A)) := by decide +kernel

theorem test_decode_scrlbfr :
    term? labels "SCRLBFR  i:1, i:0" = some (.scrlbfr (.imm 1) (.imm 0)) ∧
    term? labels "SCRLBFR  i:0, i:-1" = some (.scrlbfr (.imm 0) (.imm 0xFFFF)) := by decide +kernel

/-! ## Text as bits, and the load of one instruction (log 1, log 12) -/

/-- `NOT  5` as bytes: N O T, two spaces, 5 (ASCII 4E 4F 54 20 20 35), the first byte lowest. -/
theorem test_table_word_not : decodeTableWord 48 0x352020544F4E = some (.not (.reg 5)) := by decide +kernel

/-- A zero byte ends the text: `HALT` in a field of seven bytes. -/
theorem test_table_word_halt_padded : decodeTableWord 56 0x000000544C4148 = some .halt := by decide +kernel

theorem test_with_fetch_word : status? (step (State.reset.withFetchWord 32 0x544C4148)) = some .halted := by decide +kernel

theorem test_encode_jbt :
    encode (.jbt (.imm 20) (.reg 31) (.imm 0xBEEF)) = name "JBT  i:0x0014, 31, i:0xBEEF" := by decide +kernel

/-! ## What the checks refuse (R84; the refused lines of 95_test_vectors.md, each beside an accepted one) -/

theorem test_wf_jal : (Instr.jal (.reg 2)).wf = false ∧ (Instr.jal (.imm 2)).wf = true ∧ (Instr.jmp (.reg 2)).wf = true := by
  decide +kernel

theorem test_wf_program_fits :
    Program.fits 65535 [.halt, .halt] = false ∧ Program.fits 65535 [.halt] = true ∧
      Program.wf 0 [.jal (.reg 2)] = false ∧ Program.wf 0 [.jal (.reg 5)] = true := by decide +kernel

theorem test_ram_size_bounds :
    ramSizeOk 0x2000 = false ∧ ramSizeOk 0x2001 = true ∧ ramSizeOk 65536 = true ∧ ramSizeOk 65537 = false := by
  decide +kernel

theorem test_refuse_mnemonic :
    why? [] "NOP" = some .unknownMnemonic ∧ why? [] "halt" = some .unknownMnemonic ∧ why? [] "" = some .unknownMnemonic := by
  decide +kernel

theorem test_refuse_operand_count :
    why? [] "HALT  0" = some .operandCount ∧ why? [] "ADD  5" = some .operandCount ∧
      why? [] "NOT  5, 6" = some .operandCount := by decide +kernel

theorem test_refuse_register : why? [] "MVR  5, 32" = some .registerRange ∧ why? [] "MVR  5, 31" = none := by decide +kernel

theorem test_refuse_immediate :
    why? [] "MVR  i:70000, 5" = some .immediateRange ∧ why? [] "MVR  i:65535, 5" = none ∧
      why? [] "SCRLBFR  i:-40000, i:0" = some .immediateRange ∧
      term? [] "SCRLBFR  i:-32768, i:0" = some (.scrlbfr (.imm 0x8000) (.imm 0)) := by decide +kernel

theorem test_refuse_negative :
    why? [] "ADD  5, i:-1" = some .negativeImmediate ∧
      term? [] "ADD  5, i:0xFFFF" = some (.add (.reg 5) (.imm 0xFFFF)) := by decide +kernel

theorem test_refuse_literal : why? [] "MVR  i:, 5" = some .badLiteral ∧ why? [] "MVR  i:0xG, 5" = some .badLiteral := by
  decide +kernel

theorem test_refuse_gpu : why? [] "MVR  5, GPU" = some .gpuOperand := by decide +kernel

theorem test_refuse_jal_link : why? [] "JAL  2" = some .jalLinkOperand ∧ why? [] "JAL  5" = none := by decide +kernel

theorem test_refuse_label :
    why? [] "JMP  nowhere" = some .undefinedLabel ∧ why? labels "ADD  loop, 5" = some .labelAsValue ∧
      why? labels "LOAD  5, loop" = some .labelAsValue ∧ why? [] "JMP  +" = some .badOperand := by decide +kernel

/-- The model's choice (log 10): a label is found under its own letter case only. -/
theorem test_label_case :
    term? [(name "Loop", 1)] "JMP  Loop" = some (.jmp (.imm 1)) ∧ why? [(name "Loop", 1)] "JMP  loop" = some .undefinedLabel := by
  decide +kernel

/-- A label in a register-only position is an immediate after load, and loads (R77). -/
theorem test_label_in_register_position : term? labels "NOT  loop" = some (.not (.imm 81)) := by decide +kernel

theorem test_refuse_program :
    whyProgram? 65535 [line [] "HALT", line [] "HALT"] = some .programTooLong ∧
      whyProgram? 0 [line ["a"] "HALT", line ["a"] "HALT"] = some .labelDefinedTwice ∧
      whyProgram? 0 [line [] "HALT", line ["end"] ""] = some .undefinedLabel := by decide +kernel

/-- The program P5 of 95_test_vectors.md, with comment and blank lines, at base 0. -/
def listing : List SourceLine :=
  [line [] "// echo keys", line [] "MVR  i:0x2000, 5", line ["again"] "KEYIN  5", line [] "READ  5, 6",
    line [] "", line [] "LDTXT  i:0, 6", line [] "DRTXT  i:0, i:2, i:10", line [] "SUB  6, i:7  // is it H",
    line [] "JZ  out, 0", line [] "JMP  again", line ["out"] "HALT"]

theorem test_assemble_p5 :
    program? 0 listing = some [.mvr (.imm 0x2000) (.reg 5), .keyin (.reg 5), .read (.reg 5) (.reg 6),
      .ldtxt (.imm 0) (.reg 6), .drtxt (.imm 0) (.imm 2) (.imm 10), .sub (.reg 6) (.imm 7), .jz (.imm 8) (.reg 0),
      .jmp (.imm 1), .halt] := by decide +kernel

/-! ## One step (V1 to V124) -/

/-- V1. -/
theorem test_load_stores :
    (let r := run (.load (.reg 31) (.imm 0x1000)) (machine [(31, 0xBEEF)] [])
    cell? r 0x1000 = some 0xBEEF ∧ cell? r 0x1001 = some 0 ∧ pc? r = some 1) := by decide +kernel

/-- V4. -/
theorem test_load_outside_ram :
    (let r := run (.load (.imm 1) (.imm 0x3000)) (small (machine [] []))
    status? r = some (.faulted (.memRangeFault 0x3000)) ∧ pc? r = some 0 ∧ cell? r 0x3000 = some 0) := by decide +kernel

/-- V6. -/
theorem test_read_own_address :
    reg? (run (.read (.reg 5) (.reg 5)) (machine [(5, 0x1000)] [(0x1000, 0x4242)])) 5 = some 0x4242 := by decide +kernel

/-- V7, with a bad address as well: the operand type is reported (R188). -/
theorem test_read_immediate_destination :
    (let r := run (.read (.imm 0x3000) (.imm 5)) (small (machine [] []))
    status? r = some (.faulted .operandTypeError) ∧ pc? r = some 0) := by decide +kernel

/-- V8. -/
theorem test_mvr_keeps_r0 :
    (let r := run (.mvr (.imm 123) (.reg 31)) (machine [(0, 7)] [])
    reg? r 31 = some 0x007B ∧ reg? r 0 = some 7) := by decide +kernel

/-- V11. -/
theorem test_mvr_immediate_destination :
    (let r := run (.mvr (.reg 5) (.imm 3)) (machine [(5, 9)] [])
    status? r = some (.faulted .operandTypeError) ∧ reg? r 3 = some 0) := by decide +kernel

/-- V12. -/
theorem test_mvm_copies :
    (let r := run (.mvm (.imm 0x1000) (.imm 0x1001)) (machine [] [(0x1000, 9)])
    cell? r 0x1001 = some 9 ∧ cell? r 0x1000 = some 9 ∧ reg? r 0 = some 0) := by decide +kernel

/-- R188. -/
theorem test_mvm_source_checked_first :
    status? (run (.mvm (.imm 0x4000) (.imm 0x5000)) (small (machine [] []))) = some (.faulted (.memRangeFault 0x4000)) := by decide +kernel

/-- V20. -/
theorem test_add_wraps :
    (let r := run (.add (.reg 5) (.reg 6)) (machine [(5, 0xFFFE), (6, 5), (1, 3)] [])
    reg? r 0 = some 0x0003 ∧ reg? r 5 = some 0xFFFE ∧ reg? r 1 = some 3) := by decide +kernel

/-- V23. -/
theorem test_sub_borrows :
    reg? (run (.sub (.reg 5) (.reg 6)) (machine [(5, 3), (6, 5)] [])) 0 = some 0xFFFE := by decide +kernel

/-- V24. -/
theorem test_sub_sign_edge :
    reg? (run (.sub (.imm 0x8000) (.imm 1)) (machine [] [])) 0 = some 0x7FFF := by decide +kernel

/-- V28. -/
theorem test_mult_reads_both_first :
    (let r := run (.mult (.reg 0) (.reg 1)) (machine [(0, 0x1234), (1, 0x0100)] [])
    reg? r 0 = some 0x3400 ∧ reg? r 1 = some 0x0012) := by decide +kernel

/-- V27. -/
theorem test_mult_top :
    (let r := run (.mult (.imm 0xFFFF) (.imm 0xFFFF)) (machine [] [])
    reg? r 0 = some 0x0001 ∧ reg? r 1 = some 0xFFFE) := by decide +kernel

/-- V32, V33, V34, V37, V38, V39, V30 (R115). -/
theorem test_div_signs :
    ([(0xFFF9, 2), (7, 0xFFFE), (0xFFF9, 0xFFFE), (0xFFFD, 5), (0x8000, 0xFFFF), (0x7FFF, 0xFFFF), (100, 7)].map fun p =>
      (let r := run (.div (.imm p.1) (.imm p.2)) (machine [] []); (reg? r 0, reg? r 1)))
    = [(some 0xFFFD, some 0xFFFF), (some 0xFFFD, some 1), (some 3, some 0xFFFF), (some 0, some 0xFFFD), (some 0x8000, some 0),
      (some 0x8001, some 0), (some 0x000E, some 2)] := by decide +kernel

/-- V42. -/
theorem test_div_by_zero :
    (let r := run (.div (.imm 0) (.imm 0)) (machine [(0, 0xAAAA), (1, 0xBBBB)] [])
    status? r = some (.faulted .divideByZero) ∧ pc? r = some 0 ∧ reg? r 0 = some 0xAAAA ∧ reg? r 1 = some 0xBBBB) := by decide +kernel

/-- V50 to V54. -/
theorem test_shl :
    [(0x00F3, 2), (0x8001, 1), (1, 15), (0x1234, 0), (0xFFFF, 16)].map (fun p => reg? (run (.shl (.imm p.1) (.imm p.2)) (machine [] [])) 0)
    = [some 0x03CC, some 0x0002, some 0x8000, some 0x1234, some 0] := by decide +kernel

/-- V55 to V58. -/
theorem test_shr :
    [(0x8005, 1), (0x8000, 1), (0x8000, 15), (0xFFFF, 16)].map (fun p => reg? (run (.shr (.imm p.1) (.imm p.2)) (machine [] [])) 0)
    = [some 0x4002, some 0x4000, some 1, some 0] := by decide +kernel

/-- V59 to V64. -/
theorem test_shlr :
    [(0xA001, 3), (0x8000, 1), (0x1234, 12), (0x1234, 16), (0x1234, 20)].map (fun p =>
      reg? (run (.shlr (.imm p.1) (.imm p.2)) (machine [] [])) 0)
    = [some 0x000D, some 1, some 0x4123, some 0x1234, some 0x2341] := by decide +kernel

/-- V71. -/
theorem test_and_own_destination :
    reg? (run (.and (.reg 0) (.reg 31)) (machine [(0, 0xF0F0), (31, 0x3C3C)] [])) 0 = some 0x3030 := by decide +kernel

/-- V72. -/
theorem test_or :
    reg? (run (.or (.reg 5) (.imm 0x0001)) (machine [(5, 0x1230)] [])) 0 = some 0x1231 := by decide +kernel

/-- V74. -/
theorem test_xor_clears_r0 :
    (let r := run (.xor (.reg 5) (.reg 5)) (machine [(5, 0xBEEF), (0, 0x1111)] [])
    reg? r 0 = some 0 ∧ reg? r 5 = some 0xBEEF) := by decide +kernel

/-- V73. -/
theorem test_xor :
    reg? (run (.xor (.reg 5) (.reg 6)) (machine [(5, 0x00FF), (6, 0x0F0F)] [])) 0 = some 0x0FF0 := by decide +kernel

/-- V75. -/
theorem test_not_in_place :
    (let r := run (.not (.reg 5)) (machine [(5, 0x00F0), (0, 0x1111)] [])
    reg? r 5 = some 0xFF0F ∧ reg? r 0 = some 0x1111) := by decide +kernel

/-- V77. -/
theorem test_not_immediate :
    status? (run (.not (.imm 5)) (machine [] [])) = some (.faulted .operandTypeError) := by decide +kernel

/-- V80, and R81. -/
theorem test_jmp :
    pc? (run (.jmp (.reg 2)) (at_ 7 (machine [(2, 3)] []))) = some 3 ∧ pc? (run (.jmp (.imm 2)) (at_ 7 (machine [(2, 3)] []))) = some 2 := by decide +kernel

/-- V93, and the step after it. -/
theorem test_jmp_outside :
    (let r := run (.jmp (.imm 500)) (machine [] [])
    pc? r = some 500 ∧ status? r = some .running ∧ (after? r).bind (fun s => status? (step s)) = some (.faulted (.fetchFault 500))) := by decide +kernel

/-- V83. -/
theorem test_jal :
    (let r := run (.jal (.reg 5)) (at_ 9 (machine [(5, 0x0020)] []))
    reg? r 2 = some 0x000A ∧ pc? r = some 32) := by decide +kernel

/-- R141: at pc = 65535 the link value wraps. -/
theorem test_jal_link_wraps :
    (let r := run (.jal (.imm 6)) (at_ 65535 (machine [(2, 9)] []))
    reg? r 2 = some 0 ∧ pc? r = some 6) := by decide +kernel

/-- V84, V85. -/
theorem test_jz :
    [0, 1, 0x8000].map (fun w => pc? (run (.jz (.imm 9) (.reg 5)) (at_ 4 (machine [(5, w)] [])))) = [some 9, some 5, some 5] := by decide +kernel

/-- V87, V88, V89. -/
theorem test_jnz :
    [4, 0, 0x8000].map (fun w => pc? (run (.jnz (.imm 2) (.reg 5)) (at_ 6 (machine [(5, w)] [])))) = [some 2, some 7, some 2] := by decide +kernel

/-- V90, V91. -/
theorem test_jbt :
    [0x0065, 0x0064].map (fun w => pc? (run (.jbt (.imm 20) (.reg 5) (.imm 100)) (at_ 10 (machine [(5, w)] [])))) = [some 20, some 11] := by decide +kernel

/-- V92. -/
theorem test_jbt_unsigned :
    pc? (run (.jbt (.imm 20) (.imm 0xFFFF) (.imm 1)) (at_ 10 (machine [] []))) = some 20 := by decide +kernel

/-- V100, V101, V102; the old upper bits are gone. -/
theorem test_keyin_codes :
    [('H', 0x0007), (',', 0x002A), ('0', 0x001A)].map (fun p => (charCode p.1).bind (fun c =>
      cell? (run (.keyin (.reg 5)) ((machine [(5, 0x2001)] [(0x2001, 0xFFFF)]).press c)) 0x2001))
    = [some 0x0007, some 0x002A, some 0x001A] := by decide +kernel

/-- V103, and the same step once the key of V100 has come. -/
theorem test_keyin_waits :
    stop? (run (.keyin (.imm 0x2000)) (machine [] [])) = some .blocked ∧
      cell? (run (.keyin (.imm 0x2000)) ((machine [] []).press 7)) 0x2000 = some 7 := by decide +kernel

/-- V104. -/
theorem test_halt :
    (let r := run .halt (at_ 8 (machine [] []))
    status? r = some .halted ∧ pc? r = some 8) := by decide +kernel

/-- P7. -/
theorem test_runs_off_the_end :
    status? (step (at_ 1 ((machine [] []).load 0 [.mvr (.imm 1) (.reg 5)]))) = some (.faulted (.fetchFault 1)) := by decide +kernel

/-- R162, R163. -/
theorem test_drline_range :
    status? (run (.drline (.imm 0) (.imm 0) (.imm 0) (.imm 32)) (machine [] [])) = some (.faulted (.gpuRangeFault 4)) ∧
      pc? (run (.drline (.imm 0) (.imm 0) (.imm 31) (.imm 31)) (machine [] [])) = some 1 := by decide +kernel

/-- V111. -/
theorem test_drgrd_fills :
    (let r := run (.drgrd (.imm 10) (.imm 10) (.imm 5) (.imm 5)) (machine [] [])
    [(10, 10), (14, 14), (9, 10), (15, 14), (14, 15)].map (fun p => pixel? r p.1 p.2)
      = [some true, some true, some false, some false, some false]) := by decide +kernel

/-- V113, V114. -/
theorem test_drgrd_overrun :
    status? (run (.drgrd (.imm 30) (.imm 0) (.imm 3) (.imm 1)) (machine [] [])) = some (.faulted (.gpuRangeFault 3)) ∧
      status? (run (.drgrd (.imm 0) (.imm 0) (.imm 0) (.imm 1)) (machine [] [])) = some (.faulted (.gpuRangeFault 3)) := by decide +kernel

/-- R165. -/
theorem test_clrgrid_clears :
    (let r := run (.clrgrid (.imm 0) (.imm 1) (.imm 32) (.imm 31)) (drawn [(0, 0), (0, 1), (31, 31)] (machine [] []))
    [(0, 0), (0, 1), (31, 31)].map (fun p => pixel? r p.1 p.2) = [some true, some false, some false]) := by decide +kernel

/-- V116. -/
theorem test_ldspr :
    (let r := run (.ldspr (.imm 2) (.imm 0x4211)) (machine [] [])
    sprite? r 2 = some 0x4211 ∧ sprite? r 1 = some 0 ∧ pixel? r 0 0 = some false) := by decide +kernel

/-- V116: the bits of 0x4211 as pixels (column, row). -/
theorem test_sprite_layout :
    [(0, 0), (1, 0), (0, 1), (4, 1), (0, 2), (3, 2), (4, 2)].map (fun p => spritePixel 0x4211 p.1 p.2)
    = [true, false, true, false, true, false, true] := by decide +kernel

/-- R162, R167. -/
theorem test_drspr :
    pc? (run (.drspr (.imm 1) (.imm 10) (.imm 10)) (machine [] [])) = some 1 ∧
      status? (run (.drspr (.imm 1) (.imm 10) (.imm 32)) (machine [] [])) = some (.faulted (.gpuRangeFault 3)) := by decide +kernel

/-- V119 and R168. -/
theorem test_ldtxt :
    text? (run (.ldtxt (.imm 16383) (.imm 42)) (machine [] [])) 16383 = some 42 ∧
      status? (run (.ldtxt (.imm 0) (.imm 43)) (machine [] [])) = some (.faulted (.gpuRangeFault 2)) := by decide +kernel

/-- R162, R169. -/
theorem test_drtxt :
    pc? (run (.drtxt (.imm 0) (.imm 2) (.imm 10)) (machine [] [])) = some 1 ∧
      status? (run (.drtxt (.imm 16384) (.imm 2) (.imm 10)) (machine [] [])) = some (.faulted (.gpuRangeFault 1)) := by decide +kernel

/-- V120. -/
theorem test_scroll_right :
    (let r := run (.scrlbfr (.imm 1) (.imm 0)) (drawn [(0, 0), (31, 5)] (machine [] []))
    [(1, 0), (0, 0), (0, 5), (31, 5)].map (fun p => pixel? r p.1 p.2) = [some true, some false, some false, some false]) := by decide +kernel

/-- V121, V122. -/
theorem test_scroll_register_left_and_up :
    (let r := run (.scrlbfr (.reg 5) (.imm 0xFFFF)) (drawn [(4, 4), (3, 0)] (machine [(5, 0xFFFF)] []))
    [(3, 3), (4, 4), (2, 31)].map (fun p => pixel? r p.1 p.2) = [some true, some false, some false]) := by decide +kernel

/-- V124. -/
theorem test_gpu_detached :
    (let r := run (.drgrd (.imm 99) (.imm 99) (.imm 99) (.imm 99)) (noGpu (machine [] []))
    pc? r = some 1 ∧ status? r = some .running) := by decide +kernel

/-! ## What meets the hypotheses of the obligations

Each theorem below shows, for the obligation it names, a concrete state and operands that meet its hypotheses together, one conjunct
for each clause that has hypotheses of its own, at the edges of its range. -/

theorem test_hyp_DecodeEncodeAgree :
    (Instr.jal (.reg 5)).wf = true ∧ (Instr.jal (.imm 2)).wf = true ∧ (Instr.mvr (.imm 0xFFFF) (.imm 3)).wf = true := by decide +kernel

theorem test_hyp_TableWordRoundTrip :
    (Instr.scrlbfr (.imm 0x8000) (.reg 31)).wf = true := by decide +kernel

theorem test_hyp_AcceptedLinesAreTerms :
    (∃ i, decodeLine labels (name "JZ  end_label, 0") = .ok i) ∧ ∃ i, decodeLine [] (name "HALT") = .ok i := ⟨⟨.jz (.imm 79) (.reg 0), by decide +kernel⟩, ⟨.halt, by decide +kernel⟩⟩

theorem test_hyp_ImmediateAdmission :
    ["0", "65535", "0xFFFF", "-1", "-32768", "-32769", "65536", "-0"].map (fun s => readLiteral s.toList)
    = [some 0, some 65535, some 65535, some (-1), some (-32768), some (-32769), some 65536, some 0] := by decide +kernel

theorem test_hyp_AssembledProgram :
    ∃ prog, assemble 0 listing = .ok prog := ⟨_, rfl⟩

theorem test_hyp_LabelsNameAddresses :
    name "a" ∈ (line ["a", "b"] "HALT").labels ∧
      ((symbolsFrom 65535 ([line ["c"] "// none"] ++ line ["a", "b"] "HALT" :: [])).map Prod.fst).Nodup := by decide +kernel

theorem test_hyp_LoadGivesLaunchState :
    State.reset.wf = true ∧ Program.wf 65535 [.halt] = true ∧ Program.wf 65536 [] = true ∧
      (small (noGpu (machine [(3, 5)] [(0x2FFF, 1)]))).wf = true := by decide +kernel

theorem test_hyp_StoreThenReadCell :
    (0x2FFF : Word).toNat < (small (machine [] [])).ramSize ∧ (0xFFFF : Word).toNat < State.reset.ramSize ∧ (0x2FFE : Word) ≠ 0x2FFF := by decide +kernel

theorem test_hyp_CanonicalMemoriesAreEqual :
    Memory.wf [(0, 1), (65535, 2)] = true ∧ Memory.wf [] = true ∧ Memory.wf [(0, 0)] = false ∧ Memory.wf [(1, 1), (0, 1)] = false := by decide +kernel

theorem test_hyp_FetchReadsProgramStore :
    (let s := at_ 11 (State.reset.load 10 [.halt])
    s.status = .running ∧ s.prog[0]? = some .halt ∧ s.progBase + s.prog.length ≤ s.pc ∧ 9 < s.progBase) := by decide +kernel

/-- A running machine at its one instruction. -/
def atInstr (i : Instr) : State := (at_ 3 (machine [(5, 9)] [])).load 3 [i]

theorem test_hyp_StepRunsFetchedInstruction :
    (atInstr .halt).status = .running ∧ (atInstr .halt).fetch (atInstr .halt).pc = .ok .halt := ⟨rfl, rfl⟩

theorem test_hyp_StoppedMachineHasNoStep :
    (State.reset.setStatus .halted).status = .halted ∧
      (State.reset.setStatus (.faulted .divideByZero)).status = .faulted .divideByZero ∧
      (atInstr (.keyin (.imm 0xFFFF))).Blocked := ⟨rfl, rfl, rfl, rfl, _, rfl, by decide⟩

theorem test_hyp_RunningMachineSteps :
    (atInstr (.jal (.reg 5))).wf = true ∧ (atInstr (.jal (.reg 5))).status = .running ∧ ¬ (atInstr (.jal (.reg 5))).Blocked ∧
      (small (atInstr (.keyin (.imm 0x3000)))).wf = true ∧ ¬ (small (atInstr (.keyin (.imm 0x3000)))).Blocked := ⟨by decide +kernel, rfl, fun ⟨_, _, _, h, _⟩ => (nomatch h), by decide +kernel, fun ⟨_, _, _, h, hlt⟩ => by cases h; revert hlt; decide⟩

theorem test_hyp_StepKeepsStateWellFormed :
    (atInstr (.jal (.reg 5))).wf = true ∧ ∃ t, step (atInstr (.jal (.reg 5))) = .next t := ⟨by decide +kernel, _, rfl⟩

theorem test_hyp_StepKeepsLaunchParameters :
    (∃ t, step (atInstr (.scrlbfr (.imm 1) (.imm 0))) = .next t) ∧ (atInstr (.scrlbfr (.imm 1) (.imm 0))).gpu = some Gpu.reset := ⟨⟨_, rfl⟩, rfl⟩

theorem test_hyp_GpuAttachmentInvisibleToCpu :
    ∃ t, step { atInstr (.ldtxt (.imm 0) (.imm 7)) with gpu := some Gpu.reset } = .next t ∧ ∀ p, t.status ≠ .faulted (.gpuRangeFault p) := ⟨_, rfl, by intro p; exact Status.noConfusion⟩

theorem test_hyp_FaultingStepWritesNothing :
    (atInstr (.div (.reg 5) (.imm 0))).status = .running ∧
      ∃ t, step (atInstr (.div (.reg 5) (.imm 0))) = .next t ∧ t.status = .faulted .divideByZero := ⟨rfl, _, rfl, rfl⟩

theorem test_hyp_ExceptionSources :
    [run (.div (.imm 1) (.imm 0)) (machine [] []), run (.not (.imm 1)) (machine [] []), run (.read (.imm 0) (.imm 1)) (machine [] []),
      run (.mvr (.imm 0) (.imm 1)) (machine [] []), run (.load (.imm 1) (.imm 0x3000)) (small (machine [] [])),
      run (.read (.imm 0x3000) (.reg 1)) (small (machine [] [])), run (.mvm (.imm 0x3001) (.imm 1)) (small (machine [] [])),
      run (.mvm (.imm 1) (.imm 0x3001)) (small (machine [] [])), run (.keyin (.imm 0xFFFF)) (small (machine [] [])),
      run (.ldspr (.imm 1) (.imm 0x8000)) (machine [] [])].map status?
    = [some (.faulted .divideByZero), some (.faulted .operandTypeError), some (.faulted .operandTypeError),
      some (.faulted .operandTypeError), some (.faulted (.memRangeFault 0x3000)), some (.faulted (.memRangeFault 0x3000)),
      some (.faulted (.memRangeFault 0x3001)), some (.faulted (.memRangeFault 0x3001)),
      some (.faulted (.memRangeFault 0xFFFF)), some (.faulted (.gpuRangeFault 2))] := by decide +kernel

theorem test_hyp_OnlyHaltHalts :
    State.reset.status = .running ∧ ∃ t, exec .halt State.reset = .next t ∧ t.status = .halted := ⟨rfl, _, rfl, rfl⟩

theorem test_hyp_RegisterWriters :
    (∃ t, exec (.not (.reg 0)) State.reset = .next t) ∧ ∃ t, exec (.div (.imm 7) (.imm 2)) State.reset = .next t := ⟨⟨_, rfl⟩, ⟨_, rfl⟩⟩

theorem test_hyp_RamWriters :
    (∃ t, exec (.load (.imm 7) (.imm 65535)) State.reset = .next t) ∧ ∃ t, exec (.add (.imm 7) (.imm 2)) State.reset = .next t := ⟨⟨_, rfl⟩, ⟨_, rfl⟩⟩

theorem test_hyp_DeviceWriters :
    (∃ t, exec (.keyin (.imm 7)) (State.reset.press 5) = .next t) ∧ isGpuMnemonic (Instr.keyin (.imm 7)).mnemonic = false ∧
      ∃ t, exec (.ldspr (.imm 0) (.imm 1)) State.reset = .next t := ⟨⟨_, rfl⟩, rfl, ⟨_, rfl⟩⟩

theorem test_hyp_SequentialAdvance :
    State.reset.status = .running ∧ (∃ t, exec (.keyin (.imm 7)) (State.reset.press 5) = .next t ∧ t.status = .running) ∧
      isJumpMnemonic (Instr.keyin (.imm 7)).mnemonic = false := ⟨rfl, ⟨_, rfl, rfl⟩, rfl⟩

/-- LoadWritesRam, ReadLoadsRegister, MoveMemoryCell and KeyinStoresCode: addresses at both sides of RAM_SIZE. -/
theorem test_hyp_LoadReadMoveKeyin_addresses :
    (let s := (small (machine [(5, 0x2FFF), (6, 0x3000)] []))
    (val (.reg 5) s).toNat < s.ramSize ∧ s.ramSize ≤ (val (.reg 6) s).toNat ∧ s.ramSize ≤ (val (.imm 0xFFFF) s).toNat ∧
      (val (.imm 0) s).toNat < s.ramSize) := by decide +kernel

theorem test_hyp_SubtractWraps :
    (let s := machine [(5, 3), (6, 5)] []
    (val (.reg 5) s).toNat ≤ (val (.reg 6) s).toNat ∧ (val (.reg 5) s).toNat < (val (.reg 6) s).toNat ∧
      (val (.reg 5) s).toNat ≤ (val (.reg 5) s).toNat) := by decide +kernel

theorem test_hyp_SignBitAfterSubtract :
    (∃ t, exec (.sub (.imm 0x8000) (.imm 0)) State.reset = .next t) ∧
      -32768 ≤ s16 0x8000 - s16 0 ∧ s16 0x8000 - s16 0 ≤ 32767 ∧ s16 0 - s16 0x8001 ≤ 32767 := ⟨⟨_, rfl⟩, by decide, by decide, by decide⟩

theorem test_hyp_DivideByZeroRaises :
    val (.reg 6) (machine [(5, 3)] []) = 0 := by decide +kernel

theorem test_hyp_DivideTruncates :
    val (.reg 5) (machine [(5, 1)] []) ≠ 0 ∧ val (.imm 0xFFFF) (machine [] []) ≠ 0 := by decide +kernel

theorem test_hyp_DivisionIdentity :
    (let s := machine [(5, 0x8000)] []
    val (.imm 0xFFFE) s ≠ 0 ∧ ¬ (val (.reg 5) s = 0x8000 ∧ val (.imm 0xFFFE) s = 0xFFFF) ∧
      (after? (exec (.div (.reg 5) (.imm 0xFFFE)) s)).isSome = true) := by decide +kernel

theorem test_hyp_DivisionBelowSignBit :
    (let s := machine [(5, 0x7FFF)] []
    (val (.reg 5) s).toNat < 0x8000 ∧ (val (.imm 1) s).toNat < 0x8000 ∧ val (.imm 1) s ≠ 0 ∧
      (after? (exec (.div (.reg 5) (.imm 1)) s)).isSome = true) := by decide +kernel

theorem test_hyp_JumpAndLink :
    (Operand.imm 2) ≠ .reg 2 ∧ (Operand.reg 5) ≠ .reg 2 := by decide +kernel

theorem test_hyp_KeyinStoresCode :
    (let s := (machine [] []).press 63
    (val (.imm 0xFFFF) s).toNat < s.ramSize ∧ s.keyboard = 63 :: []) := by decide +kernel

theorem test_hyp_KeyinWaitsForKey :
    (let s := small (machine [] [])
    (val (.imm 0x2FFF) s).toNat < s.ramSize ∧ s.keyboard = []) := by decide +kernel

theorem test_hyp_GpuDetachedIgnored :
    [Instr.drline (.imm 32) (.imm 0) (.imm 0) (.imm 0), .drgrd (.imm 0) (.imm 0) (.imm 0) (.imm 0), .clrgrid (.imm 0) (.imm 0) (.imm 0) (.imm 0),
      .ldspr (.imm 0) (.imm 0), .drspr (.imm 0) (.imm 0) (.imm 0), .ldtxt (.imm 0) (.imm 0), .drtxt (.imm 0) (.imm 0) (.imm 0),
      .scrlbfr (.imm 0) (.imm 0)].all (fun i => isGpuMnemonic i.mnemonic) = true ∧ (noGpu State.reset).gpu = none := by decide +kernel

theorem test_hyp_DrawLinePixels :
    (let s := machine [(5, 31)] []
    s.gpu.isSome = true ∧ (val (.reg 5) s).toNat = (31 : Coord).val ∧ (val (.imm 0) s).toNat = (0 : Coord).val) := by decide +kernel

theorem test_hyp_FillAndClearRectangle :
    (let s := machine [(5, 31)] []
    s.gpu.isSome = true ∧ (val (.reg 5) s).toNat ≤ 31 ∧ 1 ≤ (val (.imm 1) s).toNat ∧
      (val (.reg 5) s).toNat + (val (.imm 1) s).toNat ≤ 32 ∧ (val (.imm 0) s).toNat + (val (.imm 32) s).toNat ≤ 32) := by decide +kernel

/-- One input for each clause, at its edge; the last two are overruns whose operands are each in range. -/
theorem test_hyp_RectangleRangeFaults :
    [(32, 0, 1, 1), (31, 32, 1, 1), (31, 31, 0, 1), (31, 31, 33, 1), (31, 31, 32, 0), (31, 31, 32, 33), (31, 31, 2, 32), (0, 31, 32, 2)].map (fun p =>
      [run (.drgrd (.imm p.1) (.imm p.2.1) (.imm p.2.2.1) (.imm p.2.2.2)) (machine [] []),
        run (.clrgrid (.imm p.1) (.imm p.2.1) (.imm p.2.2.1) (.imm p.2.2.2)) (machine [] [])].map status?)
    = [1, 2, 3, 3, 4, 4, 3, 4].map (fun k => [some (.faulted (.gpuRangeFault k)), some (.faulted (.gpuRangeFault k))]) := by decide +kernel

/-- One input for each clause, at its edge. -/
theorem test_hyp_SlotAndPointRangeFaults :
    [Instr.drline (.imm 32) (.imm 32) (.imm 0) (.imm 0), .drline (.imm 31) (.imm 32) (.imm 32) (.imm 0), .drline (.imm 31) (.imm 31) (.imm 32) (.imm 0),
      .drline (.imm 31) (.imm 31) (.imm 31) (.imm 32), .ldspr (.imm 32) (.imm 0x8000), .ldspr (.imm 31) (.imm 0x8000),
      .drspr (.imm 32) (.imm 0) (.imm 0), .drspr (.imm 31) (.imm 32) (.imm 0), .drspr (.imm 31) (.imm 31) (.imm 32),
      .ldtxt (.imm 16384) (.imm 43), .ldtxt (.imm 16383) (.imm 43), .drtxt (.imm 16384) (.imm 0) (.imm 0),
      .drtxt (.imm 16383) (.imm 32) (.imm 0), .drtxt (.imm 16383) (.imm 31) (.imm 32)].map (fun i => status? (run i (machine [] [])))
    = [1, 2, 3, 4, 1, 2, 1, 2, 3, 1, 2, 1, 2, 3].map (fun k => some (.faulted (.gpuRangeFault k))) := by decide +kernel

theorem test_hyp_LoadSpriteSlot :
    (let s := machine [(5, 31)] []
    s.gpu.isSome = true ∧ (val (.reg 5) s).toNat = (31 : Fin 32).val ∧ (val (.imm 0x7FFF) s).toNat ≤ 0x7FFF) := by decide +kernel

theorem test_hyp_DrawSpriteAndText :
    (let s := machine [(5, 31), (6, 16383)] []
    s.gpu.isSome = true ∧ (val (.reg 5) s).toNat = (31 : Coord).val ∧ (val (.reg 5) s).toNat = (31 : Fin 32).val ∧
      (val (.reg 6) s).toNat ≤ 16383) := by decide +kernel

theorem test_hyp_LoadTextSlot :
    (let s := machine [(6, 16383)] []
    s.gpu.isSome = true ∧ (val (.reg 6) s).toNat ≤ 16383 ∧ (val (.imm 42) s).toNat ≤ 42) := by decide +kernel

theorem test_hyp_ScrollMovesPixels :
    (∀ s : State, s = machine [] [] → s.gpu = some Gpu.reset) ∧
      ((1 : Coord).val : Int) = (0 : Coord).val + s16 1 ∧ ((0 : Coord).val : Int) = (1 : Coord).val + s16 0xFFFF ∧
      ¬ ∃ x : Coord, ((0 : Coord).val : Int) = x.val + s16 1 := ⟨fun s h => h ▸ rfl, by decide +kernel⟩

end Sys2Proof.Tests
end

/-! # The state (10_state.md)

The claims about the state, the load of a program and one step. They follow from three inversion lemmas of
Sys2Proof/Laws: `exec_effect` (what an instruction can leave), `step_next_cases` (where a next state comes from) and
`exec_fault_iff` (when there is none). -/

namespace Sys2Proof.Machine

/-! ## The invariant, clause by clause -/

theorem State.wf_iff (s : State) :
    s.wf = true ↔ ramSizeOk s.ramSize = true ∧ Program.wf s.progBase s.prog = true ∧ s.pc ≤ 65536 ∧ s.ram.wf = true ∧
      Cells.below s.ramSize s.ram = true ∧ ∀ g, s.gpu = some g → g.wf = true := by
  cases hg : s.gpu <;> simp [State.wf, hg, and_assoc]

theorem Program.wf_iff (base : Nat) (prog : List Instr) :
    Program.wf base prog = true ↔ base + prog.length ≤ 65536 ∧ ∀ i ∈ prog, i.wf = true := by
  simp [Program.wf, Program.fits]

theorem Program.le_of_wf {base : Nat} {prog : List Instr} (h : Program.wf base prog = true) : base ≤ 65536 := by
  have := ((Program.wf_iff base prog).mp h).1
  omega

/-- An accepted program has its instructions below address 65536 (R27), each of them accepted (R84). -/
theorem State.fetch_ok_of_wf {s : State} (hs : s.wf = true) {a : Nat} {i : Instr} (hi : s.fetch a = .ok i) :
    a < 65536 ∧ i.wf = true := by
  obtain ⟨-, hprog, -⟩ := (State.wf_iff s).mp hs
  obtain ⟨hfits, hterms⟩ := (Program.wf_iff _ _).mp hprog
  obtain ⟨hbase, hget⟩ := (State.fetch_ok_iff s a i).mp hi
  have hlt : a - s.progBase < s.prog.length := (List.getElem?_eq_some_iff.mp hget).1
  exact ⟨by omega, hterms i (List.mem_of_getElem? hget)⟩

/-- No effect of an instruction fetched below 65536 breaks the invariant. -/
theorem Effect.keeps_wf {i : Instr} {s t : State} (h : Effect i s t) (hs : s.wf = true) (hfetched : s.pc < 65536) :
    t.wf = true := by
  obtain ⟨hsize, hprog, hpc, hram, hbelow, hgpu⟩ := (State.wf_iff s).mp hs
  rw [State.wf_iff]
  cases h with
  | raised e => exact ⟨hsize, hprog, hpc, hram, hbelow, hgpu⟩
  | registers regs pc hregs hpc' => exact ⟨hsize, hprog, show pc ≤ 65536 by omega, hram, hbelow, hgpu⟩
  | stored a v keys ha hto hkeys =>
    exact ⟨hsize, hprog, hfetched, Memory.wf_write _ _ _ hram, Cells.below_write _ _ _ _ _ hbelow ha, hgpu⟩
  | halted hi => exact ⟨hsize, hprog, hpc, hram, hbelow, hgpu⟩
  | drew g k hg hwf hedit hdisp hi =>
    refine ⟨hsize, hprog, hfetched, hram, hbelow, fun k' hk => ?_⟩
    cases hk
    exact hwf (hgpu g hg)

/-- Settles O16: a fetch failure touches the status alone, and an instruction fetched from an accepted program stands below
65536, so that each of its effects keeps the invariant. -/
theorem stepKeepsStateWellFormed : Obligations.StepKeepsStateWellFormed := by
  intro s t hs h
  obtain ⟨-, ⟨i, hi, hexec⟩ | ⟨e, -, rfl⟩⟩ := step_next_cases h
  · exact (exec_effect i s t hexec).keeps_wf hs (State.fetch_ok_of_wf hs hi).1
  · exact (State.wf_iff _).mpr ((State.wf_iff s).mp hs)

/-! ## Load time -/

/-- The decoder's last check (R84 g): what it accepts is well formed. -/
theorem decodeLine_ok_wf {syms : Symbols} {t : Text} {i : Instr} (h : decodeLine syms t = .ok i) : i.wf = true := by
  unfold decodeLine at h
  split at h
  · cases h
  unfold assembleTerm at h
  split at h
  · cases h
  split at h
  · cases h
  split at h
  next hwf => cases h; exact hwf
  · cases h

theorem termsOf_ok {syms : Symbols} {lines : List SourceLine} {prog : List Instr} (h : termsOf syms lines = .ok prog) :
    (lines.filter SourceLine.hasInstr).map (fun l => decodeLine syms l.text) = prog.map Except.ok := by
  induction lines generalizing prog with
  | nil => cases h; rfl
  | cons l ls ih =>
    cases hl : l.hasInstr with
    | false => simpa [hl] using ih (by simpa [termsOf, hl] using h)
    | true =>
      simp only [termsOf, hl, if_true] at h
      split at h
      · cases h
      next i hi =>
        split at h
        · cases h
        next is his => cases h; simp [hl, hi, ih his]

theorem assemble_ok {base : Nat} {lines : List SourceLine} {prog : List Instr} (h : assemble base lines = .ok prog) :
    termsOf (symbolsFrom base lines) lines = .ok prog ∧ Program.fits base prog = true := by
  unfold assemble at h
  split at h
  · cases h
  next prog' hterms =>
    split at h
    · cases h
    next hfits =>
      split at h
      · cases h
      split at h
      · cases h
      · cases h; exact ⟨hterms, by simpa using hfits⟩

/-- Settles O6: the terms come line by line from the decoder, which accepts only well-formed ones, and the assembler has
checked the fit. -/
theorem assembledProgram : Obligations.AssembledProgram := by
  intro base lines prog h
  obtain ⟨hterms, hfits⟩ := assemble_ok h
  have hlines := termsOf_ok hterms
  refine ⟨(Program.wf_iff base prog).mpr ⟨of_decide_eq_true hfits, fun i hi => ?_⟩, hlines⟩
  have hmem : Except.ok i ∈ prog.map (Except.ok (ε := LoadError)) := List.mem_map_of_mem hi
  rw [← hlines] at hmem
  obtain ⟨l, -, hl⟩ := List.mem_map.mp hmem
  exact decodeLine_ok_wf hl

/-- The labels after some lines are counted from where the instructions of those lines end. -/
theorem symbolsFrom_append (addr : Nat) (before after : List SourceLine) :
    symbolsFrom addr (before ++ after)
      = symbolsFrom addr before ++ symbolsFrom (addr + (before.filter SourceLine.hasInstr).length) after := by
  induction before generalizing addr with
  | nil => rfl
  | cons l ls ih => cases hl : l.hasInstr <;> simp [symbolsFrom, ih, hl, Nat.add_assoc, Nat.add_comm 1]

/-- Where each name is listed once, looking one up finds its own entry. -/
theorem Symbols.find_of_mem {syms : Symbols} (hnodup : (syms.map Prod.fst).Nodup) {name : Text} {addr : Nat}
    (hmem : (name, addr) ∈ syms) : syms.find name = some addr := by
  cases hfind : List.find? (fun p => p.1 == name) syms with
  | none => simpa using List.find?_eq_none.mp hfind _ hmem
  | some p =>
    have hname : p.1 = name := by simpa using List.find?_some hfind
    have hp : p = (name, addr) := List.inj_on_of_nodup_map hnodup (List.mem_of_find?_eq_some hfind) hmem hname
    simp [Symbols.find, hfind, hp]

/-- Settles O7: the label stands in the table with the address reached after the lines before it, and stands there once. -/
theorem labelsNameAddresses : Obligations.LabelsNameAddresses := by
  intro base before after l name hname hnodup
  refine Symbols.find_of_mem hnodup ?_
  rw [symbolsFrom_append]
  exact List.mem_append_right _ (List.mem_append_left _ (List.mem_map_of_mem hname))

/-- Settles O8: a load writes the program, its base, `pc` and the status, and an accepted program begins at most at 65536. -/
theorem loadGivesLaunchState : Obligations.LoadGivesLaunchState := by
  intro s base prog hs hprog
  obtain ⟨hsize, -, -, hram, hbelow, hgpu⟩ := (State.wf_iff s).mp hs
  have hwf : (s.load base prog).wf = true :=
    (State.wf_iff _).mpr ⟨hsize, hprog, Program.le_of_wf hprog, hram, hbelow, hgpu⟩
  exact ⟨hwf, by simp [State.launched, State.load], rfl, rfl, rfl, rfl, rfl, rfl, rfl⟩

/-! ## The step, by status and fetch -/

theorem step_of_fetch_ok {s : State} {i : Instr} (hs : s.status = .running) (hi : s.fetch s.pc = .ok i) :
    step s = exec i s := by
  simp [step, hs, hi]

theorem step_of_fetch_error {s : State} {e : Exception} (hs : s.status = .running) (he : s.fetch s.pc = .error e) :
    step s = .next (s.setStatus (.faulted e)) := by
  simp [step, hs, he, raise_eq]

theorem step_of_halted {s : State} (hs : s.status = .halted) : step s = .fault .halted := by simp [step, hs]

theorem step_of_faulted {s : State} {e : Exception} (hs : s.status = .faulted e) : step s = .fault (.faulted e) := by
  simp [step, hs]

/-- Outside the addresses of the program a fetch fails (R59). -/
theorem State.fetch_outside {s : State} {a : Nat} (h : a < s.progBase ∨ s.progBase + s.prog.length ≤ a) :
    s.fetch a = .error (.fetchFault a) :=
  (State.fetch_error_iff s a _).mpr ⟨rfl, h⟩

/-- Settles O13: the running arm of `step` hands the fetched instruction to `exec`. -/
theorem stepRunsFetchedInstruction : Obligations.StepRunsFetchedInstruction :=
  fun _ _ hs hi => step_of_fetch_ok hs hi

/-- Settles O12: the two rules of a fetch, and the step where the second one applies. -/
theorem fetchReadsProgramStore : Obligations.FetchReadsProgramStore := by
  intro s a
  refine ⟨fun k i ha hi => (State.fetch_ok_iff s a i).mpr ?_, State.fetch_outside, fun hs hpc => ?_⟩
  · subst ha
    exact ⟨Nat.le_add_right _ _, by rwa [Nat.add_sub_cancel_left]⟩
  · exact step_of_fetch_error hs (State.fetch_outside hpc)

/-- Settles O9: the empty program has no instruction at 0. -/
theorem resetIsLaunchState : Obligations.ResetIsLaunchState :=
  ⟨rfl, rfl, step_of_fetch_error rfl (State.fetch_outside (.inr (by decide)))⟩

/-- The three ways to have no step, and the answer each gives (R32, R150). -/
theorem step_fault_iff (s : State) (f : Fault) :
    step s = .fault f ↔ (s.status = .halted ∧ f = .halted) ∨ (∃ e, s.status = .faulted e ∧ f = .faulted e) ∨
      (s.Blocked ∧ f = .blocked) := by
  cases hs : s.status with
  | halted => simp [step_of_halted hs, State.Blocked, hs, eq_comm]
  | faulted e => simp [step_of_faulted hs, State.Blocked, hs, eq_comm]
  | running =>
    cases hi : s.fetch s.pc with
    | ok i =>
      rw [step_of_fetch_ok hs hi, exec_fault_iff]
      simp [State.Blocked, hs, hi, and_comm]
    | error e => simp [step_of_fetch_error hs hi, State.Blocked, hi]

/-- Settles O14, by reading off which of the three ways gives the answer asked for. -/
theorem stoppedMachineHasNoStep : Obligations.StoppedMachineHasNoStep := by
  intro s
  simp [step_fault_iff]

/-- A step is refused only in the instruction it fetched. -/
theorem step_refused {s : State} {q : Refusal} (h : step s = .refused q) :
    ∃ i, s.fetch s.pc = .ok i ∧ exec i s = .refused q := by
  cases hs : s.status with
  | halted => rw [step_of_halted hs] at h; cases h
  | faulted e => rw [step_of_faulted hs] at h; cases h
  | running =>
    cases hi : s.fetch s.pc with
    | ok i => exact ⟨i, rfl, step_of_fetch_ok hs hi ▸ h⟩
    | error e => rw [step_of_fetch_error hs hi] at h; cases h

theorem step_not_refused_of_wf {s : State} (hs : s.wf = true) (q : Refusal) : step s ≠ .refused q := by
  intro h
  obtain ⟨i, hi, hexec⟩ := step_refused h
  obtain ⟨-, rfl⟩ := (exec_refused_iff i s q).mp hexec
  exact absurd (State.fetch_ok_of_wf hs hi).2 (by decide)

/-- Settles O15: a fault would be one of the three ways to have no step, and a refusal would be `JAL 2`, which no accepted
program holds. -/
theorem runningMachineSteps : Obligations.RunningMachineSteps := by
  intro s hwf hrun hblocked
  cases h : step s with
  | next t => exact ⟨t, rfl⟩
  | fault f => simp [step_fault_iff, hrun, hblocked] at h
  | refused q => exact absurd h (step_not_refused_of_wf hwf q)

/-! ## Frames: what an instruction leaves unchanged -/

/-- A state with the GPU unit of another has its attachment and its buffer selection. -/
theorem gpuSelection_kept_of_eq {o p : Option Gpu} (h : p = o) :
    p.isSome = o.isSome ∧ ∀ g k, o = some g → p = some k → k.edit = g.edit ∧ k.disp = g.disp := by
  subst h
  refine ⟨rfl, fun g k hg hk => ?_⟩
  cases hg.symm.trans hk
  exact ⟨rfl, rfl⟩

theorem Effect.keeps_launch {i : Instr} {s t : State} (h : Effect i s t) : LaunchKept s t := by
  cases h <;> exact ⟨rfl, rfl, rfl⟩

theorem Effect.keeps_gpuSelection {i : Instr} {s t : State} (h : Effect i s t) :
    t.gpu.isSome = s.gpu.isSome ∧ ∀ g k, s.gpu = some g → t.gpu = some k → k.edit = g.edit ∧ k.disp = g.disp := by
  cases h with
  | drew g k hg hwf hedit hdisp hi =>
    refine ⟨by simp [hg], fun g' k' hg' hk' => ?_⟩
    cases hg.symm.trans hg'
    cases hk'
    exact ⟨hedit, hdisp⟩
  | _ => exact gpuSelection_kept_of_eq rfl

/-- Settles O17: a drawing instruction keeps the selection, and nothing else touches the GPU unit or the launch. -/
theorem stepKeepsLaunchParameters : Obligations.StepKeepsLaunchParameters := by
  intro s t h
  obtain ⟨-, ⟨i, -, hexec⟩ | ⟨e, -, rfl⟩⟩ := step_next_cases h
  · have heffect := exec_effect i s t hexec
    exact ⟨heffect.keeps_launch, heffect.keeps_gpuSelection⟩
  · exact ⟨⟨rfl, rfl, rfl⟩, gpuSelection_kept_of_eq rfl⟩

/-- Settles O23: only the effect `registers` writes a register, and it stays within the destinations. -/
theorem registerWriters : Obligations.RegisterWriters := by
  intro i s t h
  cases exec_effect i s t h with
  | registers regs pc hregs hpc => exact hregs
  | _ => exact fun _ _ => rfl

/-- Settles O24: only the effect `stored` writes RAM, at the one address stored to. -/
theorem ramWriters : Obligations.RamWriters := by
  intro i s t h
  cases exec_effect i s t h with
  | stored a v keys ha hto hkeys =>
    intro b hb
    rw [hto, List.mem_singleton] at hb
    exact Memory.read_write_ne s.ram v hb
  | _ => exact fun _ _ => rfl

/-- Settles O25: only the effect `drew` changes the GPU unit, and only `stored` may take a character, then as KEYIN. -/
theorem deviceWriters : Obligations.DeviceWriters := by
  intro i s t h
  cases exec_effect i s t h with
  | drew g k hg hwf hedit hdisp hi => exact ⟨fun hno => absurd hi (by simp [hno]), fun _ => rfl, .inl rfl⟩
  | stored a v keys ha hto hkeys =>
    refine ⟨fun _ => rfl, fun hno => ?_, ?_⟩
    · exact hkeys.resolve_right fun hk => hno hk.1
    · exact hkeys.imp_right And.right
  | _ => exact ⟨fun _ => rfl, fun _ => rfl, .inl rfl⟩

/-- Settles O26: the effects that leave the machine running advance `pc`, but for the target of a jump. -/
theorem sequentialAdvance : Obligations.SequentialAdvance := by
  intro i s t _ h hrun hjump
  cases exec_effect i s t h with
  | raised e => cases hrun
  | registers regs pc hregs hpc => exact hpc.resolve_right fun hj => absurd hj.2 (by simp [hjump])
  | stored a v keys ha hto hkeys => rfl
  | halted hi => cases hrun
  | drew g k hg hwf hedit hdisp hi => rfl

/-! ## KEYIN, case by case (R150) -/

theorem exec_keyin_blocked {addr : Operand} {s : State} (ha : (val addr s).toNat < s.ramSize)
    (hk : s.keyboard = []) : exec (.keyin addr) s = .fault .blocked :=
  (exec_fault_iff _ s _).mpr ⟨rfl, hk, addr, rfl, ha⟩

theorem exec_keyin_stored {addr : Operand} {s : State} {c : KeyCode} {cs : List KeyCode}
    (ha : (val addr s).toNat < s.ramSize) (hk : s.keyboard = c :: cs) :
    exec (.keyin addr) s =
      .next { s with ram := s.ram.write (val addr s).toNat (zext16 c), keyboard := cs, pc := s.pc + 1 } := by
  have hw := State.memWrite_of_lt (s := { s with keyboard := cs }) (zext16 c) ha
  simp only [exec, execKeyin, State.keyNext, ha, hk, hw, if_true]
  rfl

theorem exec_keyin_outside {addr : Operand} {s : State} (ha : ¬ (val addr s).toNat < s.ramSize) :
    exec (.keyin addr) s = .next (s.setStatus (.faulted (.memRangeFault (val addr s)))) := by
  simp only [exec, execKeyin, ha, if_false, raise_eq]

theorem zext16_toNat (c : KeyCode) : (zext16 c).toNat = c.toNat := by
  have := c.isLt
  simp only [zext16, BitVec.toNat_ofNat]
  omega

/-- Storing to one cell, whatever becomes of the keyboard, changes no other cell. -/
theorem onlyCell_write (s : State) (a : Nat) (v : Word) (keys : List KeyCode) :
    OnlyCell s { s with ram := s.ram.write a v, keyboard := keys, pc := s.pc + 1 } a :=
  ⟨fun _ _ => rfl, fun _ hb => Memory.read_write_ne s.ram v (by simpa using hb), rfl, rfl, rfl, rfl, rfl⟩

/-- Settles O49: the pressed key is the only character, and KEYIN then stores its code. -/
theorem keyinWaitsForKey : Obligations.KeyinWaitsForKey := by
  intro addr s c ha hk
  have hpress : (s.press c).keyboard = [c] := by simp [State.press, hk]
  have hval : val addr (s.press c) = val addr s := val_congr addr rfl
  have hstored := exec_keyin_stored (addr := addr) (s := s.press c) (by rwa [hval]) hpress
  rw [hval] at hstored
  refine ⟨exec_keyin_blocked ha hk, _, hstored, rfl, ?_, rfl, onlyCell_write s _ _ []⟩
  exact (congrArg BitVec.toNat (Memory.read_write_self _ _ _)).trans (zext16_toNat c)

/-! ## One instruction under another GPU unit (R40)

`s.withGpu o` is `s` with the unit `o`. An instruction either acts on the CPU alone, and then the unit goes along unread, or
is a GPU instruction whose operands alone decide whether it raises. -/

/-- The state with `o` in place of its GPU unit: another unit, or none. -/
def State.withGpu (o : Option Gpu) (s : State) : State := { s with gpu := o }

/-- The answer with its next state, if it has one, changed by `f`. -/
def mapNext (f : State → State) : Result → Result
  | .next t => .next (f t)
  | .fault e => .fault e
  | .refused q => .refused q

/-- Whether the action raises does not depend on the unit it is applied to, and it raises nothing but GpuRangeFault. -/
def RangeChecked (f : Gpu → Except Exception Gpu) : Prop :=
  (∀ g, ∃ h, f g = .ok h) ∨ ∃ p, ∀ g, f g = .error (.gpuRangeFault p)

theorem rangeChecked_ok (f : Gpu → Gpu) : RangeChecked fun g => .ok (f g) := .inl fun g => ⟨f g, rfl⟩

theorem rangeChecked_bind {α : Type} {x : Except Exception α} {f : α → Gpu → Except Exception Gpu}
    (hx : ∀ e, x = .error e → ∃ p, e = .gpuRangeFault p) (hf : ∀ a, RangeChecked (f a)) :
    RangeChecked fun g => x >>= fun a => f a g := by
  cases x with
  | ok a => exact hf a
  | error e =>
    obtain ⟨p, rfl⟩ := hx e rfl
    exact .inr ⟨p, fun _ => rfl⟩

theorem gpuIndex_error {p n : Nat} {w : Word} (e : Exception) (h : gpuIndex p n w = .error e) :
    ∃ p, e = .gpuRangeFault p := by
  unfold gpuIndex at h
  split at h <;> cases h
  exact ⟨p, rfl⟩

theorem gpuExtent_error {p : Nat} {w : Word} (e : Exception) (h : gpuExtent p w = .error e) :
    ∃ p, e = .gpuRangeFault p := by
  unfold gpuExtent at h
  split at h <;> cases h
  exact ⟨p, rfl⟩

theorem Except.bind_error_iff {α β : Type} {x : Except Exception α} {f : α → Except Exception β} {e : Exception} :
    (x >>= f) = .error e ↔ x = .error e ∨ ∃ a, x = .ok a ∧ f a = .error e := by
  cases x <;> simp [bind, Except.bind]

theorem gpuRect_error {x y width height : Word} (e : Exception) (h : gpuRect x y width height = .error e) :
    ∃ p, e = .gpuRangeFault p := by
  obtain h | ⟨a, -, h⟩ := Except.bind_error_iff.mp h
  · exact gpuIndex_error e h
  obtain h | ⟨b, -, h⟩ := Except.bind_error_iff.mp h
  · exact gpuIndex_error e h
  obtain h | ⟨w, -, h⟩ := Except.bind_error_iff.mp h
  · exact gpuExtent_error e h
  obtain h | ⟨k, -, h⟩ := Except.bind_error_iff.mp h
  · exact gpuExtent_error e h
  split at h
  · cases h; exact ⟨3, rfl⟩
  split at h
  · cases h; exact ⟨4, rfl⟩
  · cases h

/-! ### The operations -/

section
variable (o : Option Gpu) (s : State)

@[simp] theorem val_withGpu (op : Operand) : val op (s.withGpu o) = val op s := val_congr op rfl

@[simp] theorem memRead_withGpu (a : Word) : (s.withGpu o).memRead a = s.memRead a := rfl

theorem memWrite_withGpu (a v : Word) : (s.withGpu o).memWrite a v = (s.memWrite a v).map (State.withGpu o) := by
  change (if a.toNat < s.ramSize then _ else _) = _
  rw [State.memWrite]
  split <;> rfl

theorem complete_withGpu (r : Except Exception State) :
    complete (s.withGpu o) (r.map (State.withGpu o)) = mapNext (State.withGpu o) (complete s r) := by
  cases r <;> rfl

theorem aluToR0_withGpu (f : Word → Word → Word) (a b : Operand) :
    aluToR0 f a b (s.withGpu o) = mapNext (State.withGpu o) (aluToR0 f a b s) := by
  simp only [aluToR0, val_withGpu]
  rfl

theorem jumpIf_withGpu (taken : Bool) (target : Operand) :
    jumpIf taken target (s.withGpu o) = mapNext (State.withGpu o) (jumpIf taken target s) := by
  simp only [jumpIf, val_withGpu]
  cases taken <;> rfl

end

/-! ### The instructions -/

/-- The instruction acts on the CPU alone: the GPU unit is carried along. -/
def IgnoresGpu (i : Instr) (s : State) : Prop :=
  ∀ o, exec i (s.withGpu o) = mapNext (State.withGpu o) (exec i s)

/-- The instruction is one action on the GPU unit, checked on its operands. -/
def ActsOnGpu (i : Instr) (s : State) : Prop :=
  ∃ f, RangeChecked f ∧ ∀ o, exec i (s.withGpu o) = gpuStep (s.withGpu o) f

theorem ignoresGpu_load (src dstAddr : Operand) (s : State) : IgnoresGpu (.load src dstAddr) s := by
  intro o
  simp only [exec, execLoad, val_withGpu, memWrite_withGpu, ← complete_withGpu]
  cases s.memWrite (val dstAddr s) (val src s) <;> rfl

theorem ignoresGpu_read (srcAddr dst : Operand) (s : State) : IgnoresGpu (.read srcAddr dst) s := by
  intro o
  simp only [exec, execRead, val_withGpu, memRead_withGpu, ← complete_withGpu]
  cases regof dst with
  | error e => rfl
  | ok d => cases s.memRead (val srcAddr s) <;> rfl

theorem ignoresGpu_mvm (srcAddr dstAddr : Operand) (s : State) : IgnoresGpu (.mvm srcAddr dstAddr) s := by
  intro o
  simp only [exec, execMvm, val_withGpu, memRead_withGpu, memWrite_withGpu, ← complete_withGpu]
  cases s.memRead (val srcAddr s) with
  | error e => rfl
  | ok v =>
    simp only [bind, Except.bind]
    cases s.memWrite (val dstAddr s) v <;> rfl

theorem ignoresGpu_keyin (addr : Operand) (s : State) : IgnoresGpu (.keyin addr) s := by
  intro o
  have hval : val addr (s.withGpu o) = val addr s := val_withGpu o s addr
  by_cases ha : (val addr s).toNat < s.ramSize
  · have ha' : (val addr (s.withGpu o)).toNat < (s.withGpu o).ramSize := by rwa [hval]
    cases hk : s.keyboard with
    | nil => rw [exec_keyin_blocked ha hk, exec_keyin_blocked ha' hk]; rfl
    | cons c cs => rw [exec_keyin_stored ha hk, exec_keyin_stored ha' hk, hval]; rfl
  · rw [exec_keyin_outside ha, exec_keyin_outside (by rwa [hval]), hval]
    rfl

/-- An ALU instruction of one result (R21). -/
theorem ignoresGpu_of_aluToR0 {i : Instr} {f : Word → Word → Word} {a b : Operand}
    (hi : ∀ s, exec i s = aluToR0 f a b s) (s : State) : IgnoresGpu i s := by
  intro o
  rw [hi, hi, aluToR0_withGpu]

/-- A conditional jump, whose test reads operands only (R142 to R144). -/
theorem ignoresGpu_of_jumpIf {i : Instr} {test : State → Bool} {target : Operand}
    (hi : ∀ s, exec i s = jumpIf (test s) target s) (htest : ∀ o s, test (s.withGpu o) = test s) (s : State) :
    IgnoresGpu i s := by
  intro o
  rw [hi, hi, htest, jumpIf_withGpu]

theorem exec_withGpu_cases (i : Instr) (s : State) : IgnoresGpu i s ∨ ActsOnGpu i s := by
  cases i with
  | load src dstAddr => exact .inl (ignoresGpu_load src dstAddr s)
  | read srcAddr dst => exact .inl (ignoresGpu_read srcAddr dst s)
  | mvr src dst =>
    refine .inl fun o => ?_
    simp only [exec, execMvr, val_withGpu, ← complete_withGpu]
    cases regof dst <;> rfl
  | mvm srcAddr dstAddr => exact .inl (ignoresGpu_mvm srcAddr dstAddr s)
  | add a b => exact .inl (ignoresGpu_of_aluToR0 (fun _ => rfl) s)
  | sub a b => exact .inl (ignoresGpu_of_aluToR0 (fun _ => rfl) s)
  | mult a b =>
    refine .inl fun o => ?_
    simp only [exec, execMult, val_withGpu]
    rfl
  | div a b =>
    refine .inl fun o => ?_
    simp only [exec, execDiv, val_withGpu]
    split <;> rfl
  | shl a b => exact .inl (ignoresGpu_of_aluToR0 (fun _ => rfl) s)
  | shr a b => exact .inl (ignoresGpu_of_aluToR0 (fun _ => rfl) s)
  | shlr a b => exact .inl (ignoresGpu_of_aluToR0 (fun _ => rfl) s)
  | and a b => exact .inl (ignoresGpu_of_aluToR0 (fun _ => rfl) s)
  | or a b => exact .inl (ignoresGpu_of_aluToR0 (fun _ => rfl) s)
  | xor a b => exact .inl (ignoresGpu_of_aluToR0 (fun _ => rfl) s)
  | not a =>
    refine .inl fun o => ?_
    simp only [exec, execNot, ← complete_withGpu]
    cases regof a <;> rfl
  | jmp target =>
    refine .inl fun o => ?_
    simp only [exec, execJmp, val_withGpu]
    rfl
  | jal target =>
    refine .inl fun o => ?_
    simp only [exec, execJal, val_withGpu]
    split <;> rfl
  | jz target cond => exact .inl (ignoresGpu_of_jumpIf (fun _ => rfl) (fun _ _ => by simp only [val_withGpu]) s)
  | jnz target cond => exact .inl (ignoresGpu_of_jumpIf (fun _ => rfl) (fun _ _ => by simp only [val_withGpu]) s)
  | jbt target x y => exact .inl (ignoresGpu_of_jumpIf (fun _ => rfl) (fun _ _ => by simp only [val_withGpu]) s)
  | keyin addr => exact .inl (ignoresGpu_keyin addr s)
  | halt => exact .inl fun _ => rfl
  | drline x1 y1 x2 y2 =>
    refine .inr ⟨_, ?_, fun o => by simp only [exec, execDrline, val_withGpu]; rfl⟩
    exact rangeChecked_bind gpuIndex_error fun _ => rangeChecked_bind gpuIndex_error fun _ =>
      rangeChecked_bind gpuIndex_error fun _ => rangeChecked_bind gpuIndex_error fun _ => rangeChecked_ok _
  | drgrd x y width height =>
    refine .inr ⟨_, ?_, fun o => by simp only [exec, execDrgrd, val_withGpu]; rfl⟩
    exact rangeChecked_bind gpuRect_error fun _ => rangeChecked_ok _
  | clrgrid x y width height =>
    refine .inr ⟨_, ?_, fun o => by simp only [exec, execClrgrid, val_withGpu]; rfl⟩
    exact rangeChecked_bind gpuRect_error fun _ => rangeChecked_ok _
  | ldspr id data =>
    refine .inr ⟨_, ?_, fun o => by simp only [exec, execLdspr, val_withGpu]; rfl⟩
    exact rangeChecked_bind gpuIndex_error fun _ => rangeChecked_bind gpuIndex_error fun _ => rangeChecked_ok _
  | drspr id x y =>
    refine .inr ⟨_, ?_, fun o => by simp only [exec, execDrspr, val_withGpu]; rfl⟩
    exact rangeChecked_bind gpuIndex_error fun _ => rangeChecked_bind gpuIndex_error fun _ =>
      rangeChecked_bind gpuIndex_error fun _ => rangeChecked_ok _
  | ldtxt id charCode =>
    refine .inr ⟨_, ?_, fun o => by simp only [exec, execLdtxt, val_withGpu]; rfl⟩
    exact rangeChecked_bind gpuIndex_error fun _ => rangeChecked_bind gpuIndex_error fun _ => rangeChecked_ok _
  | drtxt id x y =>
    refine .inr ⟨_, ?_, fun o => by simp only [exec, execDrtxt, val_withGpu]; rfl⟩
    exact rangeChecked_bind gpuIndex_error fun _ => rangeChecked_bind gpuIndex_error fun _ =>
      rangeChecked_bind gpuIndex_error fun _ => rangeChecked_ok _
  | scrlbfr offx offy =>
    refine .inr ⟨_, ?_, fun o => by simp only [exec, execScrlbfr, val_withGpu]; rfl⟩
    exact rangeChecked_ok _

/-! ### The step -/

/-- The status and the fetch do not read the unit, so the step does as the instruction fetched. -/
theorem step_withGpu_cases (s : State) :
    (∀ o, step (s.withGpu o) = mapNext (State.withGpu o) (step s)) ∨
      ∃ f, RangeChecked f ∧ ∀ o, step (s.withGpu o) = gpuStep (s.withGpu o) f := by
  cases hs : s.status with
  | halted => exact .inl fun o => by rw [step_of_halted hs, step_of_halted (s := s.withGpu o) hs]; rfl
  | faulted e => exact .inl fun o => by rw [step_of_faulted hs, step_of_faulted (s := s.withGpu o) hs]; rfl
  | running =>
    cases hi : s.fetch s.pc with
    | error e =>
      exact .inl fun o => by rw [step_of_fetch_error hs hi, step_of_fetch_error (s := s.withGpu o) hs hi]; rfl
    | ok i =>
      have hstep : ∀ o, step (s.withGpu o) = exec i (s.withGpu o) := fun o =>
        step_of_fetch_ok (s := s.withGpu o) hs hi
      simp only [hstep, step_of_fetch_ok hs hi]
      exact exec_withGpu_cases i s

/-! ### Two runs -/

theorem sameCpu_mapNext (o p : Option Gpu) (r : Result) :
    SameCpu (mapNext (State.withGpu o) r) (mapNext (State.withGpu p) r) := by
  cases r <;> rfl

theorem sameCpu_gpuStep {f : Gpu → Except Exception Gpu} (hf : RangeChecked f) (s : State) (g h : Gpu) :
    SameCpu (gpuStep (s.withGpu (some g)) f) (gpuStep (s.withGpu (some h)) f) := by
  obtain hok | ⟨p, herr⟩ := hf
  · obtain ⟨g', hg⟩ := hok g
    obtain ⟨h', hh⟩ := hok h
    rw [gpuStep_ok rfl hg, gpuStep_ok rfl hh]
    rfl
  · rw [gpuStep_error rfl (herr g), gpuStep_error rfl (herr h)]
    rfl

/-- Settles O18: the step carries the unit along unread, or is a GPU instruction and raises or not by its operands
alone. -/
theorem gpuStateNeverReachesCpu : Obligations.GpuStateNeverReachesCpu := by
  intro s g h
  change SameCpu (step (s.withGpu (some g))) (step (s.withGpu (some h)))
  obtain hcpu | ⟨f, hf, hgpu⟩ := step_withGpu_cases s
  · rw [hcpu, hcpu]
    exact sameCpu_mapNext _ _ _
  · rw [hgpu, hgpu]
    exact sameCpu_gpuStep hf s g h

/-- Settles O19: a GPU instruction that raises no GpuRangeFault only advances, as it does with no unit attached. -/
theorem gpuAttachmentInvisibleToCpu : Obligations.GpuAttachmentInvisibleToCpu := by
  intro s t g ht hno
  change step (s.withGpu (some g)) = .next t at ht
  change ∃ u, step (s.withGpu none) = .next u ∧ u.forgetGpu = t.forgetGpu
  obtain hcpu | ⟨f, hf, hgpu⟩ := step_withGpu_cases s
  · rw [hcpu] at ht ⊢
    cases hs : step s <;> rw [hs] at ht <;> cases ht
    exact ⟨_, rfl, rfl⟩
  · rw [hgpu] at ht ⊢
    refine ⟨_, gpuStep_none rfl f, ?_⟩
    obtain hok | ⟨p, herr⟩ := hf
    · obtain ⟨h, hh⟩ := hok g
      rw [gpuStep_ok rfl hh] at ht
      cases ht
      rfl
    · rw [gpuStep_error rfl (herr g)] at ht
      cases ht
      exact absurd rfl (hno p)

/-! ## The slots of the GPU unit -/

/-- A GPU instruction that completed changed the unit and `pc` alone (R161). -/
theorem onlyGpu_setGpu_advance (s : State) (h : Gpu) : OnlyGpu s (s.setGpu h).advance :=
  ⟨fun _ _ => rfl, fun _ _ => rfl, rfl, rfl, rfl, rfl, rfl⟩

theorem exec_ldspr_of_range {id data : Operand} {s : State} {g : Gpu} {k : Fin 32} (hg : s.gpu = some g)
    (hid : (val id s).toNat = k.val) (hdata : (val data s).toNat ≤ 0x7FFF) :
    exec (.ldspr id data) s = .next (s.setGpu (g.setSprite k (BitVec.ofNat 15 (val data s).toNat))).advance := by
  have hidx : gpuIndex 1 32 (val id s) = .ok k := by
    rw [gpuIndex_of_lt (by omega)]
    exact congrArg Except.ok (Fin.ext hid)
  refine gpuStep_ok hg ?_
  rw [hidx, gpuIndex_of_lt (n := 0x8000) (w := val data s) (by omega)]
  rfl

theorem exec_ldtxt_of_range {id charCode : Operand} {s : State} {g : Gpu} (hg : s.gpu = some g)
    (hid : (val id s).toNat < 16384) (hcode : (val charCode s).toNat < 43) :
    exec (.ldtxt id charCode) s
      = .next (s.setGpu (g.setText ⟨(val id s).toNat, hid⟩ ⟨(val charCode s).toNat, hcode⟩)).advance := by
  refine gpuStep_ok hg ?_
  rw [gpuIndex_of_lt hid, gpuIndex_of_lt hcode]
  rfl

/-- Settles O57: a word up to 0x7FFF has no bit above the 15 of a sprite, so the slot keeps each of its bits. -/
theorem loadSpriteSlot : Obligations.LoadSpriteSlot := by
  intro id data s g k hg hid hdata
  refine ⟨_, _, exec_ldspr_of_range hg hid hdata, rfl, rfl, onlyGpu_setGpu_advance s _, ?_, fun c r => ?_,
    fun j hj => ?_, rfl, rfl, rfl, rfl⟩
  · rw [Gpu.spriteSlot_setSprite, if_pos rfl, BitVec.toNat_ofNat]
    omega
  · have hbit : 14 - (5 * r.val + c.val) < 15 := by omega
    rw [Gpu.spriteSlot_setSprite, if_pos rfl, spritePixel, BitVec.getLsbD_ofNat]
    simp [hbit, BitVec.getLsbD]
  · rw [Gpu.spriteSlot_setSprite, if_neg hj]

/-- Settles O59: both operands index their ranges, and a write to a text slot is read back there alone. -/
theorem loadTextSlot : Obligations.LoadTextSlot := by
  intro id charCode s g hg hid hcode
  have hexec := exec_ldtxt_of_range hg (Nat.lt_succ_of_le hid) (Nat.lt_succ_of_le hcode)
  refine ⟨_, _, hexec, rfl, rfl, onlyGpu_setGpu_advance s _, ?_, fun j hj => ?_, rfl, rfl, rfl, rfl⟩
  · rw [Gpu.textSlot_setText, if_pos rfl]
  · rw [Gpu.textSlot_setText, if_neg hj]

end Sys2Proof.Machine

/-! # The memory (20_memory.md)

A canonical list is determined by what its keys read as: its members are the pairs whose value is the one read at their key
and not the default (`Cells.mem_iff_of_wf`), and their order is that of the keys. A RAM access is then one read or write of
such a list, behind the check of the address (R52, R53). -/

namespace Sys2Proof.Machine

/-! ## The canonical form is unique -/

/-- A key that does not read as the default is listed, with what it reads as. -/
theorem Cells.mem_of_read_ne {α : Type} {d : α} {m : List (Nat × α)} {k : Nat} (h : Cells.read d m k ≠ d) :
    (k, Cells.read d m k) ∈ m := by
  induction m with
  | nil => exact absurd rfl h
  | cons c cs ih =>
    by_cases hc : c.1 = k
    · simp [Cells.read, ← hc]
    · simp only [Cells.read, hc, if_false] at h ⊢
      exact List.mem_cons_of_mem _ (ih h)

/-- The members of a canonical list, by what it reads as. -/
theorem Cells.mem_iff_of_wf {α : Type} [DecidableEq α] {d : α} {m : List (Nat × α)} (hm : Cells.wf d m = true)
    (c : Nat × α) : c ∈ m ↔ Cells.read d m c.1 = c.2 ∧ c.2 ≠ d := by
  constructor
  · exact fun hc => ⟨Cells.read_of_mem d m hm c hc, ((Cells.wf_iff d m).mp hm).2 c hc⟩
  · rintro ⟨hread, hne⟩
    have hlisted := Cells.mem_of_read_ne (hread ▸ hne)
    rwa [hread] at hlisted

/-- Canonical lists that read the same everywhere have the same members, and both hold them by rising key. -/
theorem Cells.eq_of_read_eq {α : Type} [DecidableEq α] {d : α} {m n : List (Nat × α)} (hm : Cells.wf d m = true)
    (hn : Cells.wf d n = true) (h : ∀ k, Cells.read d m k = Cells.read d n k) : m = n := by
  have hmem : ∀ c, c ∈ m ↔ c ∈ n := fun c => by rw [Cells.mem_iff_of_wf hm, Cells.mem_iff_of_wf hn, h]
  have hrise_m := List.pairwise_map.mp ((Cells.wf_iff d m).mp hm).1
  have hrise_n := List.pairwise_map.mp ((Cells.wf_iff d n).mp hn).1
  have : Std.Asymm fun a b : Nat × α => a.1 < b.1 := ⟨fun _ _ => lt_asymm⟩
  exact hrise_m.eq_of_mem_iff hrise_n hmem

/-- Settles O11: RAM is a canonical list of words. -/
theorem canonicalMemoriesAreEqual : Obligations.CanonicalMemoriesAreEqual :=
  fun _ _ hm hn h => Cells.eq_of_read_eq hm hn h

/-! ## A store -/

/-- A read answers by the size of RAM and the one cell it reads (R52). -/
theorem State.memRead_congr {s t : State} {a : Word} (hsize : t.ramSize = s.ramSize)
    (hcell : t.ram.read a.toNat = s.ram.read a.toNat) : t.memRead a = s.memRead a := by
  simp only [State.memRead, hsize, hcell]

/-- Settles O10: the store writes the one cell and leaves RAM_SIZE, so a read elsewhere sees the same size and the same
cell. -/
theorem storeThenReadCell : Obligations.StoreThenReadCell := by
  intro s a v ha
  refine ⟨_, State.memWrite_of_lt v ha, ?_, fun b hb => State.memRead_congr rfl ?_⟩
  · simp [State.memRead_of_lt, ha]
  · exact Memory.read_write_ne s.ram v fun he => hb (BitVec.eq_of_toNat_eq he)

end Sys2Proof.Machine

/-! # Text and terms (30_encoding.md)

The encoder writes a mnemonic and operands, all without white space, comma or slash (`Plain`), so the decoder cuts the line
at the same places (`line_encode`) and reads each part back. What a line accepted by the decoder has passed is said once, in
`decodeLine_ok`. -/

namespace Sys2Proof

open Sys2Proof.Machine

/-! ## A line cut into its parts -/

/-- A text the decoder reads as it stands: no white space at its ends and no slash that could begin a comment. -/
structure Tidy (t : Text) : Prop where
  ne_nil : t ≠ []
  head : ∀ c, t.head? = some c → isBlank c = false
  last : ∀ c, t.getLast? = some c → isBlank c = false
  noSlash : '/' ∉ t

theorem Plain.tidy {t : Text} (h : Plain t) : Tidy t where
  ne_nil := h.1
  head c hc := (h.2 c (List.mem_of_mem_head? hc)).1
  last c hc := (h.2 c (List.mem_of_getLast? hc)).1
  noSlash hc := (h.2 _ hc).2.2 rfl

theorem Tidy.append {t u : Text} (ht : Tidy t) (sep : Text) (hsep : '/' ∉ sep) (hu : Tidy u) :
    Tidy (t ++ (sep ++ u)) where
  ne_nil := by simp [ht.ne_nil]
  head c hc := ht.head c (by rwa [List.head?_append_of_ne_nil _ ht.ne_nil] at hc)
  last c hc := hu.last c (by
    rwa [← List.append_assoc, List.getLast?_append_of_ne_nil _ hu.ne_nil] at hc)
  noSlash := by simp [ht.noSlash, hsep, hu.noSlash]

theorem Tidy.trim_eq {t : Text} (h : Tidy t) : trim t = t := trim_of_ends t h.head h.last

theorem Tidy.lineBody_eq {t : Text} (h : Tidy t) : lineBody t = t := by
  rw [lineBody, stripComment_of_no_slash t h.noSlash, h.trim_eq]

/-- A line is cut at the white space after its first word. -/
theorem line_word_append {word rest : Text} (hword : Plain word) (hline : Tidy (word ++ rest))
    (hrest : ∀ c, rest.head? = some c → isBlank c = true) :
    lineMnemonic (word ++ rest) = word ∧ lineOperands (word ++ rest) = operandFields (trim rest) := by
  have hpos : ∀ c ∈ word, (!isBlank c) = true := fun c hc => by simp [(hword.2 c hc).1]
  rw [lineMnemonic, lineOperands, hline.lineBody_eq, List.takeWhile_append_of_pos hpos,
    List.dropWhile_append_of_pos hpos]
  cases rest with
  | nil => simp
  | cons c cs => simp [hrest c rfl]

theorem tidy_joinOperands {ts : List Text} (h : ∀ t ∈ ts, Plain t) (hne : ts ≠ []) : Tidy (joinOperands ts) := by
  induction ts with
  | nil => exact absurd rfl hne
  | cons t ts ih =>
    have ht := (h t (by simp)).tidy
    cases ts with
    | nil => exact ht
    | cons u us => exact ht.append [',', ' '] (by decide) (ih (fun x hx => h x (by simp [hx])) (by simp))

theorem operandFields_joinOperands {ts : List Text} (h : ∀ t ∈ ts, Plain t) (hne : ts ≠ []) :
    operandFields (joinOperands ts) = ts := by
  rw [operandFields, if_neg (tidy_joinOperands h hne).ne_nil, split_joinOperands ts h hne]

/-! ## The text of a term -/

theorem encode_of_operands_nil {i : Instr} (h : i.operands = []) : encode i = i.mnemonic.name := by
  simp [encode, h]

theorem encode_of_operands_ne_nil {i : Instr} (h : i.operands ≠ []) :
    encode i = i.mnemonic.name ++ ([' ', ' '] ++ joinOperands (i.operands.map encodeOperand)) := by
  obtain ⟨op, ops, hops⟩ := List.exists_cons_of_ne_nil h
  simp [encode, hops]

/-- The decoder cuts the text of a term into its mnemonic and the texts of its operands. -/
theorem line_encode (i : Instr) :
    lineMnemonic (encode i) = i.mnemonic.name ∧ lineOperands (encode i) = i.operands.map encodeOperand := by
  have hname := plain_name i.mnemonic
  by_cases hops : i.operands = []
  · have hline := line_word_append (rest := []) hname (by simpa using hname.tidy) (by simp)
    rw [List.append_nil] at hline
    rw [encode_of_operands_nil hops, hops]
    exact hline
  · have hplain : ∀ t ∈ i.operands.map encodeOperand, Plain t := List.forall_mem_map.mpr fun op _ => plain_encodeOperand op
    have hne : i.operands.map encodeOperand ≠ [] := by simpa using hops
    have hjoin := tidy_joinOperands hplain hne
    obtain ⟨hword, hfields⟩ := line_word_append hname (hname.tidy.append [' ', ' '] (by decide) hjoin)
      (by rintro c ⟨⟩; rfl)
    rw [encode_of_operands_ne_nil hops]
    refine ⟨hword, ?_⟩
    rw [hfields, List.cons_append, List.cons_append, List.nil_append, trim_blank_cons _ _ rfl, trim_blank_cons _ _ rfl,
      hjoin.trim_eq, operandFields_joinOperands hplain hne]

/-- The text of a term is read back whatever labels are defined, since it names none. -/
theorem decodeLine_encode (syms : Symbols) {i : Instr} (h : i.wf = true) : decodeLine syms (encode i) = .ok i := by
  obtain ⟨hword, hfields⟩ := line_encode i
  have hops := parseOperands_encode syms i.mnemonic i.mnemonic.format.kinds i.operands (operands_length i)
  simp [decodeLine, assembleTerm, hword, hfields, ofName_name, hops, ofTerm_self, h]

/-- Settles O1: the line is cut where the encoder joined it, and each part is read back. -/
theorem decodeEncodeAgree : Obligations.DecodeEncodeAgree :=
  fun _ h => decodeLine_encode [] h

/-! ## Text as bytes (log 1) -/

theorem textOfBits_bitsOfText {t : Text} (h : ∀ c ∈ t, c.toNat < 256) : textOfBits t.length (bitsOfText t) = t := by
  induction t with
  | nil => rfl
  | cons c cs ih =>
    obtain ⟨hc, hcs⟩ := List.forall_mem_cons.mp h
    have hlow : (c.toNat + 256 * bitsOfText cs) % 256 = c.toNat := by omega
    have hhigh : (c.toNat + 256 * bitsOfText cs) / 256 = bitsOfText cs := by omega
    simp only [List.length_cons, bitsOfText, textOfBits, hlow, hhigh, Char.ofNat_toNat, ih hcs]

/-- A character that stands for itself as a byte: a byte, and not the zero byte that ends a text. -/
abbrev IsTextByte (c : Char) : Prop := 0 < c.toNat ∧ c.toNat < 256

theorem IsTextByte.ne_end {c : Char} (h : IsTextByte c) : c ≠ Char.ofNat 0 := by
  rintro rfl
  exact absurd h.1 (by decide)

theorem decodeTableWord_bitsOfText {t : Text} (h : ∀ c ∈ t, IsTextByte c) {i : Instr} (hi : decode t = .ok i) :
    decodeTableWord (8 * t.length) (bitsOfText t) = some i := by
  have hwhole : t.takeWhile (fun c => c != Char.ofNat 0) = t :=
    List.takeWhile_eq_self_iff.mpr fun c hc => bne_iff_ne.mpr (h c hc).ne_end
  simp only [decodeTableWord, Nat.mul_div_cancel_left _ (by decide : 0 < 8),
    textOfBits_bitsOfText fun c hc => (h c hc).2, hwhole, hi]

theorem isTextByte_hexDigit : ∀ n, n < 16 → IsTextByte (hexDigit n) := by decide +kernel

theorem isTextByte_name (m : Mnemonic) : ∀ c ∈ m.name, IsTextByte c := by
  rw [← List.forall_iff_forall_mem]
  cases m <;> decide +kernel

theorem isTextByte_encodeOperand (op : Operand) : ∀ c ∈ encodeOperand op, IsTextByte c := by
  cases op with
  | reg n =>
    have := n.isLt
    simp only [encodeOperand, encodeReg]
    split -- one digit or two
    · simpa using isTextByte_hexDigit n.val (by omega)
    · simpa using ⟨isTextByte_hexDigit (n.val / 10) (by omega), isTextByte_hexDigit (n.val % 10) (by omega)⟩
  | imm v =>
    have := v.isLt
    simp only [encodeOperand, encodeWord, List.forall_mem_cons]
    exact ⟨by decide, by decide, by decide, by decide, isTextByte_hexDigit _ (by omega), isTextByte_hexDigit _ (by omega),
      isTextByte_hexDigit _ (by omega), isTextByte_hexDigit _ (by omega), List.forall_mem_nil _⟩

theorem isTextByte_joinOperands {ts : List Text} (h : ∀ t ∈ ts, ∀ c ∈ t, IsTextByte c) :
    ∀ c ∈ joinOperands ts, IsTextByte c := by
  induction ts with
  | nil => simp [joinOperands]
  | cons t ts ih =>
    obtain ⟨ht, hts⟩ := List.forall_mem_cons.mp h
    cases ts with
    | nil => exact ht
    | cons u us =>
      simp only [joinOperands, List.forall_mem_append, List.forall_mem_cons]
      exact ⟨ht, by decide, by decide, ih hts⟩

theorem isTextByte_encode (i : Instr) : ∀ c ∈ encode i, IsTextByte c := by
  have hname := isTextByte_name i.mnemonic
  by_cases hops : i.operands = []
  · rwa [encode_of_operands_nil hops]
  · have hspaces : ∀ c ∈ [' ', ' '], IsTextByte c := List.forall_iff_forall_mem.mp (by decide)
    have hoperands : ∀ t ∈ i.operands.map encodeOperand, ∀ c ∈ t, IsTextByte c :=
      List.forall_mem_map.mpr fun op _ => isTextByte_encodeOperand op
    rw [encode_of_operands_ne_nil hops, List.forall_mem_append, List.forall_mem_append]
    exact ⟨hname, hspaces, isTextByte_joinOperands hoperands⟩

/-- Settles O2: every character of the text is a byte and none is zero, so the bytes are the text, which O1 reads back. -/
theorem tableWordRoundTrip : Obligations.TableWordRoundTrip :=
  fun i h => decodeTableWord_bitsOfText (isTextByte_encode i) (decodeEncodeAgree i h)

/-! ## Accepted lines -/

/-- What an accepted line has passed: its first word names the mnemonic, its operand texts are read by the format, and the
term made of the two is well formed. -/
theorem decodeLine_ok {syms : Symbols} {t : Text} {i : Instr} (h : decodeLine syms t = .ok i) :
    lineMnemonic t = i.mnemonic.name ∧
      parseOperands syms i.mnemonic i.mnemonic.format.kinds (lineOperands t) = .ok i.operands ∧ i.wf = true := by
  have hwf := decodeLine_ok_wf h
  unfold decodeLine at h
  split at h
  · cases h
  next m hm =>
    unfold assembleTerm at h
    split at h
    · cases h
    next ops hops =>
      split at h
      · cases h
      next j hj =>
        split at h
        · cases h
          obtain ⟨rfl, rfl⟩ := of_ofTerm m ops i hj
          exact ⟨name_of_ofName _ _ hm, hops, hwf⟩
        · cases h

/-- Settles O4: the operands are read one text for each kind of the format. -/
theorem acceptedLinesAreTerms : Obligations.AcceptedLinesAreTerms := by
  intro syms t i h
  obtain ⟨hword, hops, hwf⟩ := decodeLine_ok h
  obtain ⟨htexts, hcount⟩ := parseOperands_length _ _ _ _ _ hops
  exact ⟨hword, htexts, hcount, hwf⟩

/-- Settles O45: the term is the one that is not well formed, which the decoder never answers and exec refuses. -/
theorem jumpAndLinkOnLinkRegister : Obligations.JumpAndLinkOnLinkRegister :=
  ⟨fun s => (exec_refused_iff _ s _).mpr ⟨rfl, rfl⟩, fun _ _ h => absurd (decodeLine_ok_wf h) (by decide)⟩

/-! ## Immediates (R78) -/

theorem parseOperand_immediate (syms : Symbols) (m : Mnemonic) (k : Kind) {lit : Text} {n : Int}
    (h : readLiteral lit = some n) :
    parseOperand syms m k ('i' :: ':' :: lit) = (admitImmediate (m == .scrlbfr) n).map .imm := by
  simp [parseOperand, h]

theorem admitImmediate_of_nonneg (negatives : Bool) {n : Int} (h0 : 0 ≤ n) (h1 : n ≤ 65535) :
    admitImmediate negatives n = .ok (u16 n) := by
  simp [admitImmediate, u16, h0, h1]

theorem admitImmediate_of_neg (negatives : Bool) {n : Int} (h0 : -32768 ≤ n) (h1 : n ≤ -1) :
    admitImmediate negatives n = if negatives then .ok (u16 n) else .error .negativeImmediate := by
  have hneg : ¬ (0 ≤ n ∧ n ≤ 65535) := by omega
  simp [admitImmediate, u16, hneg, h0, h1]

theorem admitImmediate_of_outside (negatives : Bool) {n : Int} (h : n < -32768 ∨ 65535 < n) :
    admitImmediate negatives n = .error .immediateRange := by
  have hword : ¬ (0 ≤ n ∧ n ≤ 65535) := by omega
  have hneg : ¬ (-32768 ≤ n ∧ n ≤ -1) := by omega
  simp [admitImmediate, hword, hneg]

/-- Settles O5: an admitted literal is narrowed to its word, which reads back as the literal unsigned from 0 on and signed
below. -/
theorem immediateAdmission : Obligations.ImmediateAdmission := by
  intro syms m k lit n hlit
  rw [parseOperand_immediate syms m k hlit]
  refine ⟨fun h0 h1 => ⟨u16 n, ?_, ?_⟩, fun h0 h1 hm => ⟨u16 n, ?_, ?_⟩, fun h0 h1 hm => ?_, fun h => ?_⟩
  · rw [admitImmediate_of_nonneg _ h0 h1]; rfl
  · rw [u16_toNat, Int.emod_eq_of_lt h0 (by omega)]
  · rw [admitImmediate_of_neg _ h0 h1, hm]; rfl
  · exact s16_u16 n h0 (by omega)
  · rw [admitImmediate_of_neg _ h0 h1, beq_false_of_ne hm]; rfl
  · rw [admitImmediate_of_outside _ h]; rfl

/-! ## Lines of the source -/

/-- Settles O3: each line is evaluated. -/
theorem sourceLinesDecode : Obligations.SourceLinesDecode := by
  unfold Obligations.SourceLinesDecode
  decide +kernel

end Sys2Proof

/-! # The memory instructions (40_memory_instructions.md)

Each instruction has one equation for each outcome: it completes with one register or one cell written, or it raises. What a
completed instruction changed is said once for a register (`next_setReg`) and once for a cell (`next_storeCell`). -/

namespace Sys2Proof.Machine

/-! ## An instruction that completed -/

/-- Writing one register and advancing changes no other register and nothing beside the registers and `pc`. -/
theorem onlyRegs_setReg_advance (s : State) (d : RegNum) (v : Word) : OnlyRegs s (s.setReg d v).advance [d] :=
  ⟨fun r hr => State.getReg_setReg_ne s d r v (by simpa using hr), fun _ _ => rfl, rfl, rfl, rfl, rfl, rfl, rfl⟩

theorem next_setReg {r : Result} {s : State} {d : RegNum} {v : Word} (h : r = .next (s.setReg d v).advance) :
    ∃ t, r = .next t ∧ t.getReg d = v ∧ t.pc = s.pc + 1 ∧ OnlyRegs s t [d] :=
  ⟨_, h, State.getReg_setReg_self s d v, rfl, onlyRegs_setReg_advance s d v⟩

theorem next_storeCell {r : Result} {s : State} {a : Nat} {v : Word}
    (h : r = .next { s with ram := s.ram.write a v, pc := s.pc + 1 }) :
    ∃ t, r = .next t ∧ t.ram.read a = v ∧ t.pc = s.pc + 1 ∧ t.keyboard = s.keyboard ∧ OnlyCell s t a :=
  ⟨_, h, Memory.read_write_self s.ram a v, rfl, rfl, onlyCell_write s a v s.keyboard⟩

/-! ## LOAD (R100) -/

theorem exec_load_of_lt (src : Operand) {dstAddr : Operand} {s : State} (h : (val dstAddr s).toNat < s.ramSize) :
    exec (.load src dstAddr) s =
      .next { s with ram := s.ram.write (val dstAddr s).toNat (val src s), pc := s.pc + 1 } := by
  rw [exec, execLoad, State.memWrite_of_lt _ h]
  rfl

theorem exec_load_of_le (src : Operand) {dstAddr : Operand} {s : State} (h : s.ramSize ≤ (val dstAddr s).toNat) :
    exec (.load src dstAddr) s = .next (s.setStatus (.faulted (.memRangeFault (val dstAddr s)))) := by
  rw [exec, execLoad, State.memWrite_of_le _ h]
  rfl

/-- Settles O27: the check of the address decides between the store and the exception. -/
theorem loadWritesRam : Obligations.LoadWritesRam :=
  fun src _ _ => ⟨fun h => next_storeCell (exec_load_of_lt src h), exec_load_of_le src⟩

/-! ## READ (R101) -/

theorem exec_read_of_lt {srcAddr : Operand} (d : RegNum) {s : State} (h : (val srcAddr s).toNat < s.ramSize) :
    exec (.read srcAddr (.reg d)) s = .next (s.setReg d (s.ram.read (val srcAddr s).toNat)).advance := by
  rw [exec, execRead, State.memRead_of_lt h]
  rfl

theorem exec_read_of_le {srcAddr : Operand} (d : RegNum) {s : State} (h : s.ramSize ≤ (val srcAddr s).toNat) :
    exec (.read srcAddr (.reg d)) s = .next (s.setStatus (.faulted (.memRangeFault (val srcAddr s)))) := by
  rw [exec, execRead, State.memRead_of_le h]
  rfl

/-- The operand type is checked before the address is looked at (R188). -/
theorem exec_read_imm (srcAddr : Operand) (v : Word) (s : State) :
    exec (.read srcAddr (.imm v)) s = .next (s.setStatus (.faulted .operandTypeError)) := rfl

/-- Settles O28: a register destination leaves the check of the address to decide; an immediate one raises before it. -/
theorem readLoadsRegister : Obligations.ReadLoadsRegister :=
  fun srcAddr d v s => ⟨fun h => next_setReg (exec_read_of_lt d h), exec_read_of_le d, exec_read_imm srcAddr v s⟩

/-! ## MVR (R102) -/

theorem exec_mvr_reg (src : Operand) (d : RegNum) (s : State) :
    exec (.mvr src (.reg d)) s = .next (s.setReg d (val src s)).advance := rfl

theorem exec_mvr_imm (src : Operand) (v : Word) (s : State) :
    exec (.mvr src (.imm v)) s = .next (s.setStatus (.faulted .operandTypeError)) := rfl

/-- Settles O29: the form of the destination alone decides. -/
theorem moveToRegister : Obligations.MoveToRegister :=
  fun src d v s => ⟨next_setReg (exec_mvr_reg src d s), exec_mvr_imm src v s⟩

/-! ## MVM (R103) -/

theorem exec_mvm_of_lt {srcAddr dstAddr : Operand} {s : State} (hsrc : (val srcAddr s).toNat < s.ramSize)
    (hdst : (val dstAddr s).toNat < s.ramSize) :
    exec (.mvm srcAddr dstAddr) s =
      .next { s with ram := s.ram.write (val dstAddr s).toNat (s.ram.read (val srcAddr s).toNat), pc := s.pc + 1 } := by
  simp only [exec, execMvm, State.memRead_of_lt hsrc, bind, Except.bind, State.memWrite_of_lt _ hdst]
  rfl

/-- The source address is checked first, so a bad one is reported whatever the destination (R188). -/
theorem exec_mvm_of_src_le {srcAddr : Operand} (dstAddr : Operand) {s : State}
    (hsrc : s.ramSize ≤ (val srcAddr s).toNat) :
    exec (.mvm srcAddr dstAddr) s = .next (s.setStatus (.faulted (.memRangeFault (val srcAddr s)))) := by
  rw [exec, execMvm, State.memRead_of_le hsrc]
  rfl

theorem exec_mvm_of_dst_le {srcAddr dstAddr : Operand} {s : State} (hsrc : (val srcAddr s).toNat < s.ramSize)
    (hdst : s.ramSize ≤ (val dstAddr s).toNat) :
    exec (.mvm srcAddr dstAddr) s = .next (s.setStatus (.faulted (.memRangeFault (val dstAddr s)))) := by
  simp only [exec, execMvm, State.memRead_of_lt hsrc, bind, Except.bind, State.memWrite_of_le _ hdst]
  rfl

/-- Settles O30: the check of the source address, then that of the destination, decide between the copy and the two
exceptions. -/
theorem moveMemoryCell : Obligations.MoveMemoryCell :=
  fun _ dstAddr _ =>
    ⟨fun hsrc hdst => next_storeCell (exec_mvm_of_lt hsrc hdst), exec_mvm_of_src_le dstAddr, exec_mvm_of_dst_le⟩

end Sys2Proof.Machine

/-! # The arithmetic instructions (41_arithmetic.md)

What the results of the arithmetic unit read as, unsigned and signed; then, for each instruction, one equation for each
outcome. What a completed instruction changed is said once for a pair of registers (`next_setAluPair`), as `next_setReg` says
it for one. -/

namespace Sys2Proof.Machine

/-! ## Sums, differences and products -/

theorem addWord_toNat (a b : Word) : (addWord a b).toNat = (a.toNat + b.toNat) % 65536 :=
  u16_ofNat_toNat (a.toNat + b.toNat)

theorem subWord_toNat (a b : Word) : ((subWord a b).toNat : Int) = ((a.toNat : Int) - b.toNat) % 65536 :=
  u16_toNat _

/-- SUB serves both readings of its operands (R114). -/
theorem subWord_eq_u16_s16 (a b : Word) : subWord a b = u16 (s16 a - s16 b) := by
  apply BitVec.eq_of_toNat_eq
  have hunsigned := subWord_toNat a b
  have hsigned := u16_toNat (s16 a - s16 b)
  have ha := s16_emod a
  have hb := s16_emod b
  omega

theorem product_toNat (a b : Word) : (product a b).toNat = a.toNat * b.toNat := by
  have hlt : a.toNat * b.toNat < 2 ^ 16 * 2 ^ 16 := Nat.mul_lt_mul'' a.isLt b.isLt
  rw [product, BitVec.toNat_ofNat]
  exact Nat.mod_eq_of_lt hlt

theorem productLow_toNat (a b : Word) : (productLow a b).toNat = a.toNat * b.toNat % 65536 := by
  rw [productLow, BitVec.extractLsb'_toNat, product_toNat, Nat.shiftRight_zero]

theorem productHigh_toNat (a b : Word) : (productHigh a b).toNat = a.toNat * b.toNat / 65536 := by
  have hlt := (product a b).isLt
  rw [productHigh, BitVec.extractLsb'_toNat, Nat.shiftRight_eq_div_pow, ← product_toNat]
  omega

/-! ## Quotients and remainders (R115, R116) -/

theorem natAbs_tmod_lt {b : Int} (a : Int) (hb : b ≠ 0) : (a.tmod b).natAbs < b.natAbs := by
  rw [Int.natAbs_tmod]
  exact Nat.mod_lt _ (Int.natAbs_pos.mpr hb)

theorem tmod_mul_self_nonneg (a b : Int) : 0 ≤ a.tmod b * a := by
  rcases Int.le_total 0 a with ha | ha
  · exact mul_nonneg (Int.tmod_nonneg b ha) ha
  · have hneg := Int.tmod_nonneg b (Int.neg_nonneg.mpr ha)
    rw [Int.neg_tmod] at hneg
    exact mul_nonneg_of_nonpos_of_nonpos (Int.neg_nonneg.mp hneg) ha

/-- A quotient is no larger than its dividend, and 32768 is one of -32768 by -1 alone. -/
theorem tdiv_range {a b : Int} (ha : -32768 ≤ a ∧ a ≤ 32767) (hb : b ≠ 0) (hab : ¬ (a = -32768 ∧ b = -1)) :
    -32768 ≤ a.tdiv b ∧ a.tdiv b ≤ 32767 := by
  have hle := Int.natAbs_tdiv_le_natAbs a b
  have hne : a.tdiv b ≠ 32768 := by
    intro hq
    have hsum := Int.tdiv_mul_add_tmod a b
    have hrem := natAbs_tmod_lt a hb
    rw [hq] at hsum
    omega
  omega

theorem s16_injective : Function.Injective s16 := by
  intro v w h
  apply BitVec.eq_of_toNat_eq
  have hv := s16_emod v
  have hw := s16_emod w
  omega

theorem s16_ne_zero {w : Word} (h : w ≠ 0) : s16 w ≠ 0 := mt (s16_eq_zero_iff w).mp h

theorem remainder_eq_u16_tmod (a b : Word) : remainder a b = u16 ((s16 a).tmod (s16 b)) := by
  rw [remainder, Int.tmod_def, Int.mul_comm]

theorem s16_quotient {a b : Word} (hb : b ≠ 0) (hab : ¬ (a = 0x8000 ∧ b = 0xFFFF)) :
    s16 (quotient a b) = (s16 a).tdiv (s16 b) := by
  have hfits := tdiv_range (s16_range a) (s16_ne_zero hb) fun h => hab ⟨s16_injective h.1, s16_injective h.2⟩
  exact s16_u16 _ hfits.1 hfits.2

theorem s16_remainder (a : Word) {b : Word} (hb : b ≠ 0) : s16 (remainder a b) = (s16 a).tmod (s16 b) := by
  have hlt := natAbs_tmod_lt (s16 a) (s16_ne_zero hb)
  have hrange := s16_range b
  rw [remainder_eq_u16_tmod]
  exact s16_u16 _ (by omega) (by omega)

theorem quotient_toNat {a b : Word} (ha : a.toNat < 0x8000) (hb : b.toNat < 0x8000) :
    (quotient a b).toNat = a.toNat / b.toNat := by
  rw [quotient, s16_of_lt a ha, s16_of_lt b hb, ← Int.ofNat_tdiv, u16_ofNat_toNat]
  exact Nat.mod_eq_of_lt ((Nat.div_le_self _ _).trans_lt a.isLt)

theorem remainder_toNat {a b : Word} (ha : a.toNat < 0x8000) (hb : b.toNat < 0x8000) :
    (remainder a b).toNat = a.toNat % b.toNat := by
  rw [remainder_eq_u16_tmod, s16_of_lt a ha, s16_of_lt b hb, ← Int.ofNat_tmod, u16_ofNat_toNat]
  exact Nat.mod_eq_of_lt ((Nat.mod_le _ _).trans_lt a.isLt)

/-! ## An instruction that wrote R0 and R1 -/

theorem onlyRegs_setAluPair_advance (s : State) (v w : Word) : OnlyRegs s (setAluPair s v w).advance [0, 1] := by
  refine ⟨fun r hr => ?_, fun _ _ => rfl, rfl, rfl, rfl, rfl, rfl, rfl⟩
  simp only [List.mem_cons, List.not_mem_nil, or_false, not_or] at hr
  exact (State.getReg_setReg_ne (s.setReg 0 v) 1 r w hr.2).trans (State.getReg_setReg_ne s 0 r v hr.1)

@[simp] theorem getReg_zero_setAluPair (s : State) (v w : Word) : (setAluPair s v w).getReg 0 = v :=
  (State.getReg_setReg_ne (s.setReg 0 v) 1 0 w (by decide)).trans (State.getReg_setReg_self s 0 v)

@[simp] theorem getReg_one_setAluPair (s : State) (v w : Word) : (setAluPair s v w).getReg 1 = w :=
  State.getReg_setReg_self (s.setReg 0 v) 1 w

theorem next_setAluPair {r : Result} {s : State} {v w : Word} (h : r = .next (setAluPair s v w).advance) :
    ∃ t, r = .next t ∧ t.getReg 0 = v ∧ t.getReg 1 = w ∧ t.pc = s.pc + 1 ∧ OnlyRegs s t [0, 1] :=
  ⟨_, h, getReg_zero_setAluPair s v w, getReg_one_setAluPair s v w, rfl, onlyRegs_setAluPair_advance s v w⟩

/-! ## ADD (R110) -/

theorem exec_add (a b : Operand) (s : State) :
    exec (.add a b) s = .next (s.setReg 0 (addWord (val a s) (val b s))).advance := rfl

/-- Settles O31: the sum is narrowed to R0. -/
theorem addWraps : Obligations.AddWraps := by
  intro a b s
  obtain ⟨t, ht, hr0, hpc, honly⟩ := next_setReg (exec_add a b s)
  exact ⟨t, ht, by rw [hr0, addWord_toNat], hpc, honly⟩

/-! ## SUB (R111) -/

theorem exec_sub (a b : Operand) (s : State) :
    exec (.sub a b) s = .next (s.setReg 0 (subWord (val a s) (val b s))).advance := rfl

theorem getReg_zero_of_exec_sub {a b : Operand} {s t : State} (h : exec (.sub a b) s = .next t) :
    t.getReg 0 = subWord (val a s) (val b s) := by
  cases h
  exact State.getReg_setReg_self s 0 _

/-- Settles O32: the narrowed difference is the difference itself, or 65536 more when that is negative. -/
theorem subtractWraps : Obligations.SubtractWraps := by
  intro a b s
  obtain ⟨t, ht, hr0, hpc, honly⟩ := next_setReg (exec_sub a b s)
  have hdiff := subWord_toNat (val a s) (val b s)
  rw [← hr0] at hdiff
  exact ⟨t, ht, hpc, honly, by omega, by omega⟩

/-- Settles O33: a difference of the signed readings that fits is the signed reading of R0, and the sign bit is its sign. -/
theorem signBitAfterSubtract : Obligations.SignBitAfterSubtract := by
  intro a b s t h hlow hhigh
  rw [getReg_zero_of_exec_sub h, signBit_iff_neg, subWord_eq_u16_s16, s16_u16 _ hlow hhigh]
  exact sub_neg

/-! ## MULT (R112) -/

theorem exec_mult (a b : Operand) (s : State) :
    exec (.mult a b) s =
      .next (setAluPair s (productLow (val a s) (val b s)) (productHigh (val a s) (val b s))).advance := rfl

/-- Settles O34: the 32-bit product loses nothing, and its halves are the remainder and the quotient by 65536. -/
theorem multiplyLowHigh : Obligations.MultiplyLowHigh := by
  intro a b s
  obtain ⟨t, ht, hr0, hr1, hpc, honly⟩ := next_setAluPair (exec_mult a b s)
  exact ⟨t, ht, by rw [hr0, productLow_toNat], by rw [hr1, productHigh_toNat], hpc, honly⟩

/-! ## DIV (R113) -/

theorem exec_div_of_zero (a : Operand) {b : Operand} {s : State} (h : val b s = 0) :
    exec (.div a b) s = .next (s.setStatus (.faulted .divideByZero)) := by
  rw [exec, execDiv, if_pos h, raise_eq]

theorem exec_div_of_ne_zero (a : Operand) {b : Operand} {s : State} (h : val b s ≠ 0) :
    exec (.div a b) s =
      .next (setAluPair s (quotient (val a s) (val b s)) (remainder (val a s) (val b s))).advance := by
  rw [exec, execDiv, if_neg h]

theorem getReg_of_exec_div {a b : Operand} {s t : State} (hb : val b s ≠ 0) (h : exec (.div a b) s = .next t) :
    t.getReg 0 = quotient (val a s) (val b s) ∧ t.getReg 1 = remainder (val a s) (val b s) := by
  rw [exec_div_of_ne_zero a hb] at h
  cases h
  exact ⟨getReg_zero_setAluPair s _ _, getReg_one_setAluPair s _ _⟩

/-- Settles O35: the check of the divisor comes before any result. -/
theorem divideByZeroRaises : Obligations.DivideByZeroRaises := fun a _ _ => exec_div_of_zero a

/-- Settles O36: past the check of the divisor the two results are written. -/
theorem divideTruncates : Obligations.DivideTruncates := fun a _ _ hb => next_setAluPair (exec_div_of_ne_zero a hb)

/-- Settles O37: neither result is changed by its narrowing, so the law of truncated division carries over to the signed
readings. -/
theorem divisionIdentity : Obligations.DivisionIdentity := by
  intro a b s t hb hab h
  obtain ⟨hr0, hr1⟩ := getReg_of_exec_div hb h
  rw [hr0, hr1, s16_quotient hb hab, s16_remainder _ hb]
  exact ⟨(Int.tdiv_mul_add_tmod _ _).symm, natAbs_tmod_lt _ (s16_ne_zero hb), tmod_mul_self_nonneg _ _⟩

/-- Settles O38: below the sign bit a word reads the same both ways, and the truncated quotient is the floor. -/
theorem divisionBelowSignBit : Obligations.DivisionBelowSignBit := by
  intro a b s t ha hb hb0 h
  obtain ⟨hr0, hr1⟩ := getReg_of_exec_div hb0 h
  rw [hr0, hr1]
  exact ⟨quotient_toNat ha hb, remainder_toNat ha hb⟩

end Sys2Proof.Machine

/-! # The shifts and the rotation (42_shift_rotate.md)

SHL, SHR and SHLR compute the library's `<<<`, `>>>` and `BitVec.rotateLeft`, whose bits are known; the amounts of 16
and more agree too (R123). What a completed instruction changed is said by `next_setReg`. -/

namespace Sys2Proof.Machine

/-! ## The results as operations on bit vectors -/

theorem u16_natCast (n : Nat) : u16 (n : Int) = BitVec.ofNat 16 n := BitVec.ofInt_natCast 16 n

theorem u16_mul_two_pow (a : Word) (k : Nat) : u16 ((a.toNat * 2 ^ k : Nat) : Int) = a <<< k := by
  rw [u16_natCast, ← Nat.shiftLeft_eq]
  rfl

theorem u16_div_two_pow (a : Word) (k : Nat) : u16 ((a.toNat / 2 ^ k : Nat) : Int) = a >>> k := by
  rw [u16_natCast, ← Nat.shiftRight_eq_div_pow, ← BitVec.toNat_ushiftRight, BitVec.ofNat_toNat, BitVec.setWidth_eq]

/-- From 16 on no bit of the word is left (R123). -/
theorem shiftLeft_eq (a n : Word) : shiftLeft a n = a <<< n.toNat := by
  rw [shiftLeft, u16_mul_two_pow]
  split
  · rfl
  · next h => exact (BitVec.shiftLeft_eq_zero (by omega)).symm

theorem shiftRight_eq (a n : Word) : shiftRight a n = a >>> n.toNat := by
  rw [shiftRight, u16_div_two_pow]
  split
  · rfl
  · next h => exact (BitVec.ushiftRight_eq_zero (by omega)).symm

/-- The amount counts modulo 16 on both sides (R123); where it is 0, the bits moved out are none. -/
theorem rotateLeft_eq (a n : Word) : rotateLeft a n = a.rotateLeft n.toNat := by
  rw [rotateLeft, u16_mul_two_pow, u16_div_two_pow, BitVec.rotateLeft_def]
  split
  · next h => rw [h, BitVec.shiftLeft_zero, BitVec.ushiftRight_eq_zero (by omega), BitVec.or_zero]
  · rfl

/-! ## SHL and SHR (R120, R121) -/

theorem getLsbD_shiftLeft (a n : Word) {j : Nat} (hj : j < 16) :
    (shiftLeft a n).getLsbD j = (decide (n.toNat ≤ j) && a.getLsbD (j - n.toNat)) := by
  simp only [shiftLeft_eq, BitVec.getLsbD_shiftLeft, hj, decide_true, Bool.true_and, ← decide_not, Nat.not_lt]

theorem getLsbD_shiftRight (a n : Word) (j : Nat) : (shiftRight a n).getLsbD j = a.getLsbD (j + n.toNat) := by
  rw [shiftRight_eq, BitVec.getLsbD_ushiftRight, Nat.add_comm]

theorem exec_shl (a b : Operand) (s : State) :
    exec (.shl a b) s = .next (s.setReg 0 (shiftLeft (val a s) (val b s))).advance := rfl

theorem exec_shr (a b : Operand) (s : State) :
    exec (.shr a b) s = .next (s.setReg 0 (shiftRight (val a s) (val b s))).advance := rfl

/-- Settles O39: both results go to R0, and their bits are those of the shifted word. -/
theorem shiftBits : Obligations.ShiftBits := by
  intro a b s
  constructor
  · obtain ⟨t, ht, hr0, hpc, honly⟩ := next_setReg (exec_shl a b s)
    exact ⟨t, ht, hpc, honly, fun j hj => by rw [hr0, getLsbD_shiftLeft _ _ hj]⟩
  · obtain ⟨t, ht, hr0, hpc, honly⟩ := next_setReg (exec_shr a b s)
    exact ⟨t, ht, hpc, honly, fun j _ => by rw [hr0, getLsbD_shiftRight]⟩

/-! ## SHLR (R122) -/

/-- A bit that moves past bit 15 comes back at the bottom; any other stays among the bits moved up. -/
theorem getLsbD_rotateLeft_add_mod (a n : Word) {j : Nat} (hj : j < 16) :
    (rotateLeft a n).getLsbD ((j + n.toNat) % 16) = a.getLsbD j := by
  rw [rotateLeft_eq, BitVec.getLsbD_rotateLeft]
  by_cases hwrap : 16 ≤ j + n.toNat % 16
  · have hlow : (j + n.toNat) % 16 < n.toNat % 16 := by omega
    have hback : 16 - n.toNat % 16 + (j + n.toNat) % 16 = j := by omega
    simp [hlow, hback]
  · have hhigh : ¬ (j + n.toNat) % 16 < n.toNat % 16 := by omega
    have hback : (j + n.toNat) % 16 - n.toNat % 16 = j := by omega
    simp [hhigh, hback, Nat.mod_lt]

theorem exec_shlr (a b : Operand) (s : State) :
    exec (.shlr a b) s = .next (s.setReg 0 (rotateLeft (val a s) (val b s))).advance := rfl

/-- Settles O40: R0 holds the rotated word, and each bit of A is found where the amount moves it. -/
theorem rotateLeftBits : Obligations.RotateLeftBits := by
  intro a b s
  obtain ⟨t, ht, hr0, hpc, honly⟩ := next_setReg (exec_shlr a b s)
  exact ⟨t, ht, hpc, honly, fun j hj => by rw [hr0, getLsbD_rotateLeft_add_mod _ _ hj]⟩

end Sys2Proof.Machine

/-! # The bitwise instructions (43_bitwise.md)

AND, OR and XOR differ only in the Boolean connective their word operation applies at each bit, so what they leave in R0 is
said once for any such operation (`next_bitwise`). NOT goes through `next_setReg` with its own register. -/

namespace Sys2Proof.Machine

/-! ## The results of the bitwise operations -/

theorem getLsbD_andWord (a b : Word) (j : Nat) : (andWord a b).getLsbD j = (a.getLsbD j && b.getLsbD j) :=
  BitVec.getLsbD_and

theorem getLsbD_orWord (a b : Word) (j : Nat) : (orWord a b).getLsbD j = (a.getLsbD j || b.getLsbD j) :=
  BitVec.getLsbD_or

theorem getLsbD_xorWord (a b : Word) (j : Nat) : (xorWord a b).getLsbD j = (a.getLsbD j ^^ b.getLsbD j) :=
  BitVec.getLsbD_xor

theorem notWord_toNat (a : Word) : (notWord a).toNat = 0xFFFF - a.toNat := BitVec.toNat_not

/-! ## AND, OR and XOR (R130, R131, R132) -/

theorem exec_and (a b : Operand) (s : State) :
    exec (.and a b) s = .next (s.setReg 0 (andWord (val a s) (val b s))).advance := rfl

theorem exec_or (a b : Operand) (s : State) :
    exec (.or a b) s = .next (s.setReg 0 (orWord (val a s) (val b s))).advance := rfl

theorem exec_xor (a b : Operand) (s : State) :
    exec (.xor a b) s = .next (s.setReg 0 (xorWord (val a s) (val b s))).advance := rfl

theorem next_bitwise {r : Result} {s : State} {v w : Word} {f : Word → Word → Word} {g : Bool → Bool → Bool}
    (h : r = .next (s.setReg 0 (f v w)).advance) (hf : ∀ j, (f v w).getLsbD j = g (v.getLsbD j) (w.getLsbD j)) :
    ∃ t, r = .next t ∧ t.pc = s.pc + 1 ∧ OnlyRegs s t [0] ∧
      ∀ j, (t.getReg 0).getLsbD j = g (v.getLsbD j) (w.getLsbD j) := by
  obtain ⟨t, ht, hr0, hpc, honly⟩ := next_setReg h
  exact ⟨t, ht, hpc, honly, fun j => by rw [hr0, hf]⟩

/-- Settles O41: each of the three word operations applies its connective at every bit. -/
theorem bitwiseBits : Obligations.BitwiseBits :=
  fun a b s =>
    ⟨next_bitwise (exec_and a b s) (getLsbD_andWord _ _), next_bitwise (exec_or a b s) (getLsbD_orWord _ _),
      next_bitwise (exec_xor a b s) (getLsbD_xorWord _ _)⟩

/-! ## NOT (R133) -/

theorem exec_not_reg (n : RegNum) (s : State) :
    exec (.not (.reg n)) s = .next (s.setReg n (notWord (s.getReg n))).advance := rfl

theorem exec_not_imm (v : Word) (s : State) :
    exec (.not (.imm v)) s = .next (s.setStatus (.faulted .operandTypeError)) := rfl

/-- Settles O42: the form of the operand decides between writing the complement back and the exception. -/
theorem notInPlace : Obligations.NotInPlace := by
  intro n v s
  obtain ⟨t, ht, hrn, hpc, honly⟩ := next_setReg (exec_not_reg n s)
  exact ⟨⟨t, ht, by rw [hrn, notWord_toNat], hpc, honly⟩, exec_not_imm v s⟩

end Sys2Proof.Machine

/-! # The control-flow instructions (44_control_flow.md)

Every jump sets `pc`; JAL alone also writes a register, its link. A conditional jump is `jumpIf` of a test, so what it does
is said once for any test that decides a condition (`next_jumpIf`). -/

namespace Sys2Proof.Machine

/-! ## JMP (R140) -/

theorem onlyRegs_setPc (s : State) (n : Nat) : OnlyRegs s (s.setPc n) [] :=
  ⟨fun r _ => State.getReg_setPc s n r, fun _ _ => rfl, rfl, rfl, rfl, rfl, rfl, rfl⟩

theorem exec_jmp (target : Operand) (s : State) : exec (.jmp target) s = .next (s.setPc (val target s).toNat) := rfl

/-- Settles O43: the next state is the old one with its `pc` set. -/
theorem jumpSetsPc : Obligations.JumpSetsPc :=
  fun target s => ⟨_, exec_jmp target s, State.setPc_pc s _, onlyRegs_setPc s _⟩

/-! ## JAL (R141) -/

theorem onlyRegs_setReg_setPc (s : State) (d : RegNum) (v : Word) (n : Nat) :
    OnlyRegs s ((s.setReg d v).setPc n) [d] :=
  ⟨fun r hr => State.getReg_setReg_ne s d r v (by simpa using hr), fun _ _ => rfl, rfl, rfl, rfl, rfl, rfl, rfl⟩

/-- The target is read before the link is written; only the register operand 2 could tell, and that form is refused. -/
theorem exec_jal_of_ne {target : Operand} (s : State) (h : target ≠ .reg linkReg) :
    exec (.jal target) s =
      .next ((s.setReg linkReg (u16 ((s.pc + 1 : Nat) : Int))).setPc (val target s).toNat) := by
  rw [exec, execJal, if_neg h]

/-- Settles O44: the link is `pc + 1` narrowed to R2. -/
theorem jumpAndLink : Obligations.JumpAndLink := by
  intro target s h
  refine ⟨_, exec_jal_of_ne s h, State.setPc_pc _ _, ?_, onlyRegs_setReg_setPc s linkReg _ _⟩
  calc (((s.setReg linkReg (u16 ((s.pc + 1 : Nat) : Int))).setPc (val target s).toNat).getReg 2).toNat
      = (u16 ((s.pc + 1 : Nat) : Int)).toNat := congrArg BitVec.toNat (State.getReg_setReg_self s linkReg _)
    _ = (s.pc + 1) % 65536 := u16_ofNat_toNat _

/-! ## JZ, JNZ and JBT (R142, R143, R144) -/

theorem isZeroWord_iff (c : Word) : isZeroWord c = true ↔ c.toNat = 0 := by
  rw [isZeroWord, beq_iff_eq, ← BitVec.toNat_inj]
  rfl

theorem isGreater_iff (a b : Word) : isGreater a b = true ↔ b.toNat < a.toNat := decide_eq_true_iff

theorem jumpIf_eq_setPc (taken : Bool) (target : Operand) (s : State) :
    jumpIf taken target s = .next (s.setPc (if taken then (val target s).toNat else s.pc + 1)) := by
  cases taken <;> rfl

theorem next_jumpIf {r : Result} {taken : Bool} {target : Operand} {s : State} {p : Prop} [Decidable p]
    (h : r = jumpIf taken target s) (hp : taken = true ↔ p) :
    ∃ t, r = .next t ∧ OnlyRegs s t [] ∧ t.pc = if p then (val target s).toNat else s.pc + 1 :=
  ⟨_, h.trans (jumpIf_eq_setPc taken target s), onlyRegs_setPc s _, by simp only [State.setPc_pc, hp]⟩

theorem exec_jz (target cond : Operand) (s : State) :
    exec (.jz target cond) s = jumpIf (isZeroWord (val cond s)) target s := rfl

theorem exec_jnz (target cond : Operand) (s : State) :
    exec (.jnz target cond) s = jumpIf (!isZeroWord (val cond s)) target s := rfl

theorem exec_jbt (target x y : Operand) (s : State) :
    exec (.jbt target x y) s = jumpIf (isGreater (val x s) (val y s)) target s := rfl

/-- Settles O46: JNZ tests the negation of what JZ tests, so its two branches change places. -/
theorem zeroTestJumps : Obligations.ZeroTestJumps := by
  intro target cond s
  have hzero := isZeroWord_iff (val cond s)
  have hnonzero : (!isZeroWord (val cond s)) = true ↔ ¬ (val cond s).toNat = 0 := by
    rw [Bool.not_eq_true', ← Bool.not_eq_true, hzero]
  obtain ⟨t, ht, honly, hpc⟩ := next_jumpIf (exec_jnz target cond s) hnonzero
  exact ⟨next_jumpIf (exec_jz target cond s) hzero, t, ht, honly, by rw [hpc, ite_not]⟩

/-- Settles O47: JBT tests the unsigned order of its two words. -/
theorem greaterThanJump : Obligations.GreaterThanJump :=
  fun target x y s => next_jumpIf (exec_jbt target x y s) (isGreater_iff _ _)

end Sys2Proof.Machine

/-! # The system instructions and the character encoding (45_system.md)

Halting is one of the effects an instruction can have, so who halts is read off `Effect`. KEYIN's two completions are
`exec_keyin_stored` and `exec_keyin_outside`, proved above. In the encoding a character's code is its place in `charset`,
which lists no character twice (R151). -/

namespace Sys2Proof.Machine

/-! ## HALT (R152) -/

theorem Effect.halt_or_already_halted {i : Instr} {s t : State} (h : Effect i s t) (ht : t.status = .halted) :
    i = .halt ∨ s.status = .halted := by
  cases h with
  | raised e => cases ht
  | registers regs pc hregs hpc => exact .inr ht
  | stored a v keys ha hto hkeys => exact .inr ht
  | halted hi => exact .inl hi
  | drew g k hg hwf hedit hdisp hi => exact .inr ht

/-- Settles O22: every effect but `halted` leaves a status that is faulted or the old one. -/
theorem onlyHaltHalts : Obligations.OnlyHaltHalts := by
  intro i s t hrun h ht
  refine ((exec_effect i s t h).halt_or_already_halted ht).resolve_right fun hhalted => ?_
  cases hrun.symm.trans hhalted

theorem exec_halt (s : State) : exec .halt s = .next (s.setStatus .halted) := rfl

/-- Settles O50: the next state is the old one with its status set. -/
theorem haltStops : Obligations.HaltStops :=
  fun s => ⟨_, exec_halt s, State.setStatus_status s _, rfl, rfl, rfl, rfl, rfl, rfl, rfl, rfl⟩

/-! ## KEYIN (R150) -/

/-- Settles O48: the stored word is the code zero-extended, so it reads as the code. -/
theorem keyinStoresCode : Obligations.KeyinStoresCode := by
  intro addr s
  refine ⟨fun c cs ha hk => ⟨_, exec_keyin_stored ha hk, ?_, rfl, rfl, onlyCell_write s _ _ cs⟩,
    fun ha => exec_keyin_outside (Nat.not_lt.mpr ha)⟩
  calc ((s.ram.write (val addr s).toNat (zext16 c)).read (val addr s).toNat).toNat
      = (zext16 c).toNat := congrArg BitVec.toNat (Memory.read_write_self s.ram _ _)
    _ = c.toNat := zext16_toNat c

/-! ## The character encoding (R151) -/

theorem charset_nodup : charset.Nodup := by decide

theorem length_charset : charset.length = 43 := rfl

/-- In a list without repetition a value has only one place to be found at. -/
theorem findIdx?_eq_some_iff_of_nodup {α : Type} [BEq α] [LawfulBEq α] {l : List α} (hl : l.Nodup) (a : α) (n : Nat) :
    l.findIdx? (· == a) = some n ↔ l[n]? = some a := by
  rw [List.findIdx?_eq_some_iff_getElem, List.getElem?_eq_some_iff]
  refine exists_congr fun hn => ⟨fun ⟨ha, _⟩ => eq_of_beq ha, fun ha => ⟨beq_iff_eq.mpr ha, fun j hj hja => ?_⟩⟩
  exact hj.ne (hl.getElem_inj_iff.mp ((eq_of_beq hja).trans ha.symm))

/-- A place in `charset` fits in six bits, so the code of a character loses nothing of its place. -/
theorem charCode_eq_some_iff (c : Char) (k : KeyCode) : charCode c = some k ↔ codeChar k = some c := by
  simp only [charCode, codeChar, Option.map_eq_some_iff, findIdx?_eq_some_iff_of_nodup charset_nodup]
  constructor
  · rintro ⟨n, hn, rfl⟩
    have hlt : n < 43 := (List.getElem?_eq_some_iff.mp hn).1
    rwa [BitVec.toNat_ofNat, Nat.mod_eq_of_lt (by omega)]
  · exact fun hk => ⟨k.toNat, hk, (BitVec.ofNat_toNat 6 k).trans (BitVec.setWidth_eq k)⟩

theorem isSome_codeChar_iff (k : KeyCode) : (codeChar k).isSome = true ↔ k.toNat ≤ 42 := by
  rw [codeChar, isSome_getElem?, length_charset]
  exact Nat.lt_succ_iff

theorem charset_letter : ∀ n, n ≤ 25 → charset[n]? = some (Char.ofNat (65 + n)) := by decide

theorem charset_digit : ∀ n, n ≤ 9 → charset[26 + n]? = some (Char.ofNat (48 + n)) := by decide

/-- Settles O51: codes are places in `charset`, which lists letters, digits and symbols in this order. -/
theorem characterEncoding : Obligations.CharacterEncoding := by
  refine ⟨charCode_eq_some_iff, isSome_codeChar_iff, fun k hk => charset_letter k.toNat hk, fun k h1 h2 => ?_, by decide⟩
  have hdigit := charset_digit (k.toNat - 26) (by omega)
  rwa [Nat.add_sub_cancel' h1] at hdigit

end Sys2Proof.Machine

/-! # The GPU instructions (46_gpu.md)

Each instruction has an equation for its completion, and the checks of its operands decide the exception it raises. That a
drawing instruction changed the edit buffer alone is said once (`next_setEditBuffer`); what it drew there is then a fact
about the pixels of a buffer. -/

namespace Sys2Proof.Machine

/-! ## No unit attached (R160) -/

theorem onlyGpu_advance (s : State) : OnlyGpu s s.advance :=
  ⟨fun _ _ => rfl, fun _ _ => rfl, rfl, rfl, rfl, rfl, rfl⟩

/-- The eight instructions are the ones whose meaning has the shape `gpuStep`. -/
theorem exec_eq_gpuStep {i : Instr} (hi : isGpuMnemonic i.mnemonic = true) (s : State) :
    ∃ f, exec i s = gpuStep s f := by
  cases i with
  | drline x1 y1 x2 y2 => exact ⟨_, rfl⟩
  | drgrd x y width height => exact ⟨_, rfl⟩
  | clrgrid x y width height => exact ⟨_, rfl⟩
  | ldspr id data => exact ⟨_, rfl⟩
  | drspr id x y => exact ⟨_, rfl⟩
  | ldtxt id charCode => exact ⟨_, rfl⟩
  | drtxt id x y => exact ⟨_, rfl⟩
  | scrlbfr offx offy => exact ⟨_, rfl⟩
  | _ => cases hi

/-- Settles O52: the unit is looked for before any operand is checked. -/
theorem gpuDetachedIgnored : Obligations.GpuDetachedIgnored := by
  intro i s hi hg
  obtain ⟨f, hf⟩ := exec_eq_gpuStep hi s
  exact ⟨_, hf.trans (gpuStep_none hg f), rfl, hg, onlyGpu_advance s⟩

/-! ## An instruction that drew (R161) -/

theorem onlyEditBuffer_setEditBuffer (g : Gpu) (e : Buffer) : OnlyEditBuffer g (g.setEditBuffer e) :=
  ⟨g.setEditBuffer_buf_ne e, rfl, rfl, rfl, rfl⟩

theorem next_setEditBuffer {r : Result} {s : State} {g : Gpu} {e : Buffer}
    (h : r = .next (s.setGpu (g.setEditBuffer e)).advance) :
    ∃ t k, r = .next t ∧ t.gpu = some k ∧ t.pc = s.pc + 1 ∧ OnlyGpu s t ∧ OnlyEditBuffer g k ∧ k.editBuffer = e :=
  ⟨_, _, h, rfl, rfl, onlyGpu_setGpu_advance s _, onlyEditBuffer_setEditBuffer g e, g.editBuffer_setEditBuffer e⟩

/-! ## The checks of an action's operands, in order (R162, R188) -/

theorem gpuIndex_of_eq {p n : Nat} {w : Word} {k : Fin n} (h : w.toNat = k.val) : gpuIndex p n w = .ok k := by
  rw [gpuIndex_of_lt (h.trans_lt k.isLt)]
  exact congrArg Except.ok (Fin.ext h)

/-- A check that fails ends the action, whatever it would have done after. -/
theorem gpuStep_bind_error {α : Type} {x : Except Exception α} {f : α → Gpu → Except Exception Gpu} {s : State} {g : Gpu}
    {e : Exception} (hg : s.gpu = some g) (hx : x = .error e) :
    gpuStep s (fun g => x >>= fun a => f a g) = .next (s.setStatus (.faulted e)) := by
  subst hx
  exact gpuStep_error hg rfl

theorem gpuStep_index_of_le {p n : Nat} {w : Word} {f : Fin n → Gpu → Except Exception Gpu} {s : State} {g : Gpu}
    (hg : s.gpu = some g) (h : n ≤ w.toNat) :
    gpuStep s (fun g => gpuIndex p n w >>= fun a => f a g) = .next (s.setStatus (.faulted (.gpuRangeFault p))) :=
  gpuStep_bind_error hg (gpuIndex_of_le h)

/-- A check that passes leaves the rest of the action to decide. -/
theorem gpuStep_index_of_lt {p n : Nat} {w : Word} {f : Fin n → Gpu → Except Exception Gpu} {s : State}
    (h : w.toNat < n) : gpuStep s (fun g => gpuIndex p n w >>= fun a => f a g) = gpuStep s (f ⟨w.toNat, h⟩) := by
  rw [gpuIndex_of_lt h]
  rfl

section
variable {n₁ n₂ n₃ n₄ p₁ p₂ p₃ p₄ : Nat} {w₁ w₂ w₃ w₄ : Word} {s : State} {g : Gpu}

theorem gpuStep_second_index_of_le {f : Fin n₁ → Fin n₂ → Gpu → Except Exception Gpu} (hg : s.gpu = some g)
    (h₁ : w₁.toNat < n₁) (h₂ : n₂ ≤ w₂.toNat) :
    gpuStep s (fun g => gpuIndex p₁ n₁ w₁ >>= fun a => gpuIndex p₂ n₂ w₂ >>= fun b => f a b g)
      = .next (s.setStatus (.faulted (.gpuRangeFault p₂))) :=
  (gpuStep_index_of_lt h₁).trans (gpuStep_index_of_le hg h₂)

theorem gpuStep_third_index_of_le {f : Fin n₁ → Fin n₂ → Fin n₃ → Gpu → Except Exception Gpu} (hg : s.gpu = some g)
    (h₁ : w₁.toNat < n₁) (h₂ : w₂.toNat < n₂) (h₃ : n₃ ≤ w₃.toNat) :
    gpuStep s (fun g => gpuIndex p₁ n₁ w₁ >>= fun a => gpuIndex p₂ n₂ w₂ >>= fun b => gpuIndex p₃ n₃ w₃ >>= fun c =>
        f a b c g)
      = .next (s.setStatus (.faulted (.gpuRangeFault p₃))) :=
  (gpuStep_index_of_lt h₁).trans (gpuStep_second_index_of_le hg h₂ h₃)

theorem gpuStep_fourth_index_of_le {f : Fin n₁ → Fin n₂ → Fin n₃ → Fin n₄ → Gpu → Except Exception Gpu}
    (hg : s.gpu = some g) (h₁ : w₁.toNat < n₁) (h₂ : w₂.toNat < n₂) (h₃ : w₃.toNat < n₃) (h₄ : n₄ ≤ w₄.toNat) :
    gpuStep s (fun g => gpuIndex p₁ n₁ w₁ >>= fun a => gpuIndex p₂ n₂ w₂ >>= fun b => gpuIndex p₃ n₃ w₃ >>= fun c =>
        gpuIndex p₄ n₄ w₄ >>= fun d => f a b c d g)
      = .next (s.setStatus (.faulted (.gpuRangeFault p₄))) :=
  (gpuStep_index_of_lt h₁).trans (gpuStep_third_index_of_le hg h₂ h₃ h₄)

end

/-- Settles O56: the operands before the first that offends pass their checks, and its own check ends the action. The
clauses come in the order of the statement: four of DRLINE, two of LDSPR, three of DRSPR, two of LDTXT, three of DRTXT. -/
theorem slotAndPointRangeFaults : Obligations.SlotAndPointRangeFaults := by
  intro p q r u s g hg a b c d raised
  have inside {n m : Nat} (h : n ≤ m) : n < m + 1 := Nat.lt_succ_of_le h
  exact ⟨gpuStep_index_of_le hg,
    fun ha => gpuStep_second_index_of_le hg (inside ha),
    fun ha hb => gpuStep_third_index_of_le hg (inside ha) (inside hb),
    fun ha hb hc => gpuStep_fourth_index_of_le hg (inside ha) (inside hb) (inside hc),
    gpuStep_index_of_le hg,
    fun ha => gpuStep_second_index_of_le hg (inside ha),
    gpuStep_index_of_le hg,
    fun ha => gpuStep_second_index_of_le hg (inside ha),
    fun ha hb => gpuStep_third_index_of_le hg (inside ha) (inside hb),
    gpuStep_index_of_le hg,
    fun ha => gpuStep_second_index_of_le hg (inside ha),
    gpuStep_index_of_le hg,
    fun ha => gpuStep_second_index_of_le hg (inside ha),
    fun ha hb => gpuStep_third_index_of_le hg (inside ha) (inside hb)⟩

/-! ## DRLINE (R163) -/

theorem exec_drline_of_range {x1 y1 x2 y2 : Operand} {s : State} {g : Gpu} {a b c d : Coord} (hg : s.gpu = some g)
    (hx1 : (val x1 s).toNat = a.val) (hy1 : (val y1 s).toNat = b.val) (hx2 : (val x2 s).toNat = c.val)
    (hy2 : (val y2 s).toNat = d.val) :
    exec (.drline x1 y1 x2 y2) s
      = .next (s.setGpu (g.setEditBuffer (Buffer.drawLine g.editBuffer a b c d))).advance := by
  refine gpuStep_ok hg ?_
  rw [gpuIndex_of_eq hx1, gpuIndex_of_eq hy1, gpuIndex_of_eq hx2, gpuIndex_of_eq hy2]
  rfl

/-- Settles O53: a pixel of the new edit buffer is white on the line and the old one off it. -/
theorem drawLinePixels : Obligations.DrawLinePixels := by
  intro x1 y1 x2 y2 s g a b c d hg hx1 hy1 hx2 hy2
  obtain ⟨t, k, ht, hk, hpc, honly, hedit, hbuf⟩ := next_setEditBuffer (exec_drline_of_range hg hx1 hy1 hx2 hy2)
  refine ⟨t, k, ht, hk, hpc, honly, hedit, fun x y => ?_⟩
  rw [hbuf, pixel_drawLine, Bool.if_true_left, Bool.decide_eq_true]

/-! ## DRGRD and CLRGRID (R164, R165) -/

section
variable {x y width height : Word}

theorem gpuRect_of_x_le (hx : 32 ≤ x.toNat) : gpuRect x y width height = .error (.gpuRangeFault 1) := by
  rw [gpuRect, gpuIndex_of_le hx]
  rfl

theorem gpuRect_of_y_le (hx : x.toNat < 32) (hy : 32 ≤ y.toNat) :
    gpuRect x y width height = .error (.gpuRangeFault 2) := by
  rw [gpuRect, gpuIndex_of_lt hx, gpuIndex_of_le hy]
  rfl

theorem gpuRect_of_width_not_range (hx : x.toNat < 32) (hy : y.toNat < 32)
    (hwidth : ¬ (1 ≤ width.toNat ∧ width.toNat ≤ 32)) : gpuRect x y width height = .error (.gpuRangeFault 3) := by
  rw [gpuRect, gpuIndex_of_lt hx, gpuIndex_of_lt hy, gpuExtent_of_not_range hwidth]
  rfl

theorem gpuRect_of_height_not_range (hx : x.toNat < 32) (hy : y.toNat < 32)
    (hwidth : 1 ≤ width.toNat ∧ width.toNat ≤ 32) (hheight : ¬ (1 ≤ height.toNat ∧ height.toNat ≤ 32)) :
    gpuRect x y width height = .error (.gpuRangeFault 4) := by
  rw [gpuRect, gpuIndex_of_lt hx, gpuIndex_of_lt hy, gpuExtent_of_range hwidth, gpuExtent_of_not_range hheight]
  rfl

/-- With each operand in its own range only an overrun of the buffer's edge is left to raise. -/
theorem gpuRect_of_ranges (hx : x.toNat < 32) (hy : y.toNat < 32) (hwidth : 1 ≤ width.toNat ∧ width.toNat ≤ 32)
    (hheight : 1 ≤ height.toNat ∧ height.toNat ≤ 32) :
    gpuRect x y width height =
      if 32 < x.toNat + width.toNat then .error (.gpuRangeFault 3)
      else if 32 < y.toNat + height.toNat then .error (.gpuRangeFault 4)
      else .ok ⟨x.toNat, y.toNat, width.toNat, height.toNat⟩ := by
  rw [gpuRect, gpuIndex_of_lt hx, gpuIndex_of_lt hy, gpuExtent_of_range hwidth, gpuExtent_of_range hheight]
  rfl

end

/-- Settles O55: DRGRD and CLRGRID both raise what the check of their rectangle raises. -/
theorem rectangleRangeFaults : Obligations.RectangleRangeFaults := by
  intro x y width height s g i hg hi a b w h
  have raises {e : Exception} (he : gpuRect (val x s) (val y s) (val width s) (val height s) = .error e) :
      exec i s = .next (s.setStatus (.faulted e)) := by
    rcases hi with rfl | rfl
    · exact gpuStep_bind_error hg he
    · exact gpuStep_bind_error hg he
  refine ⟨fun ha => raises (gpuRect_of_x_le ha), fun ha hb => raises (gpuRect_of_y_le (by omega) hb),
    fun ha hb hw => raises (gpuRect_of_width_not_range (by omega) (by omega) (by omega)),
    fun ha hb hw1 hw2 hh => raises (gpuRect_of_height_not_range (by omega) (by omega) ⟨hw1, hw2⟩ (by omega)),
    fun ha hb hw1 hw2 hh1 hh2 hover => raises ?_, fun ha hb hw1 hh1 hh2 hin hover => raises ?_⟩
  · rw [gpuRect_of_ranges (by omega) (by omega) ⟨hw1, hw2⟩ ⟨hh1, hh2⟩, if_pos hover]
  · rw [gpuRect_of_ranges (by omega) (by omega) ⟨hw1, by omega⟩ ⟨hh1, hh2⟩, if_neg (by omega), if_pos hover]

/-- DRGRD is this action with white, CLRGRID with black. -/
theorem gpuStep_fill_of_inside {x y width height : Word} {s : State} {g : Gpu} (v : Bool) (hg : s.gpu = some g)
    (hwidth : 1 ≤ width.toNat) (hheight : 1 ≤ height.toNat) (hx : x.toNat + width.toNat ≤ 32)
    (hy : y.toNat + height.toNat ≤ 32) :
    gpuStep s (fun g => gpuRect x y width height >>= fun r => pure (g.setEditBuffer (Buffer.fill g.editBuffer r v)))
      = .next (s.setGpu (g.setEditBuffer
          (Buffer.fill g.editBuffer ⟨x.toNat, y.toNat, width.toNat, height.toNat⟩ v))).advance := by
  refine gpuStep_ok hg ?_
  rw [gpuRect_of_ranges (by omega) (by omega) ⟨hwidth, by omega⟩ ⟨hheight, by omega⟩, if_neg (by omega),
    if_neg (by omega)]
  rfl

theorem pixel_fill_true (e : Buffer) (r : Rect) (x y : Coord) :
    Buffer.pixel (Buffer.fill e r true) x y = (r.contains x y || Buffer.pixel e x y) := by
  rw [pixel_fill, Bool.if_true_left, Bool.decide_eq_true]

theorem pixel_fill_false (e : Buffer) (r : Rect) (x y : Coord) :
    Buffer.pixel (Buffer.fill e r false) x y = (!r.contains x y && Buffer.pixel e x y) := by
  rw [pixel_fill, Bool.if_false_left, Bool.decide_eq_true]

/-- Settles O54: the two instructions fill the same rectangle, with white and with black. -/
theorem fillAndClearRectangle : Obligations.FillAndClearRectangle := by
  intro x y width height s g hg _ _ hwidth hheight hx hy
  constructor
  · obtain ⟨t, k, ht, hk, hpc, honly, hedit, hbuf⟩ :=
      next_setEditBuffer (gpuStep_fill_of_inside true hg hwidth hheight hx hy)
    exact ⟨t, k, ht, hk, hpc, honly, hedit, fun px py => hbuf ▸ pixel_fill_true g.editBuffer _ px py⟩
  · obtain ⟨t, k, ht, hk, hpc, honly, hedit, hbuf⟩ :=
      next_setEditBuffer (gpuStep_fill_of_inside false hg hwidth hheight hx hy)
    exact ⟨t, k, ht, hk, hpc, honly, hedit, fun px py => hbuf ▸ pixel_fill_false g.editBuffer _ px py⟩

/-! ## DRSPR and DRTXT (R167, R169) -/

theorem exec_drspr_of_range {id x y : Operand} {s : State} {g : Gpu} {k : Fin 32} {a b : Coord} (hg : s.gpu = some g)
    (hid : (val id s).toNat = k.val) (hx : (val x s).toNat = a.val) (hy : (val y s).toNat = b.val) :
    exec (.drspr id x y) s
      = .next (s.setGpu (g.setEditBuffer (Config.blit (.sprite (g.spriteSlot k)) g.editBuffer a b))).advance := by
  refine gpuStep_ok hg ?_
  rw [gpuIndex_of_eq hid, gpuIndex_of_eq hx, gpuIndex_of_eq hy]
  rfl

theorem exec_drtxt_of_range {id x y : Operand} {s : State} {g : Gpu} {a b : Coord} (hg : s.gpu = some g)
    (hid : (val id s).toNat < 16384) (hx : (val x s).toNat = a.val) (hy : (val y s).toNat = b.val) :
    exec (.drtxt id x y) s
      = .next (s.setGpu (g.setEditBuffer
          (Config.blit (.text (Config.font (g.textSlot (val id s).toNat))) g.editBuffer a b))).advance := by
  refine gpuStep_ok hg ?_
  rw [gpuIndex_of_lt hid, gpuIndex_of_eq hx, gpuIndex_of_eq hy]
  rfl

/-- Settles O58: with its operands in range each instruction only sets the edit buffer, to the BLIT of its slot. -/
theorem drawSpriteAndText : Obligations.DrawSpriteAndText :=
  fun _ _ _ _ _ _ _ hg hx hy =>
    ⟨fun _ hid => next_setEditBuffer (exec_drspr_of_range hg hid hx hy),
      fun hid => next_setEditBuffer (exec_drtxt_of_range hg (Nat.lt_succ_of_le hid) hx hy)⟩

/-! ## SCRLBFR (R170) -/

theorem exec_scrlbfr (offx offy : Operand) {s : State} {g : Gpu} (hg : s.gpu = some g) :
    exec (.scrlbfr offx offy) s
      = .next (s.setGpu (g.setEditBuffer
          (Buffer.scroll g.editBuffer (s16 (val offx s)) (s16 (val offy s))))).advance :=
  gpuStep_ok hg rfl

theorem pixel_scroll_of_moved (e : Buffer) {dx dy : Int} {x y u v : Coord} (hu : (u.val : Int) = x.val + dx)
    (hv : (v.val : Int) = y.val + dy) : Buffer.pixel (Buffer.scroll e dx dy) u v = Buffer.pixel e x y := by
  rw [pixel_scroll, hu, hv, Int.add_sub_cancel, Int.add_sub_cancel, pixelAt_coord]

/-- Were (u - dx, v - dy) in the buffer, it would be the pixel that moves to (u, v). -/
theorem pixel_scroll_of_vacated (e : Buffer) {dx dy : Int} {u v : Coord}
    (h : ¬ ∃ x y : Coord, (u.val : Int) = x.val + dx ∧ (v.val : Int) = y.val + dy) :
    Buffer.pixel (Buffer.scroll e dx dy) u v = false := by
  rw [pixel_scroll]
  refine pixelAt_outside e _ _ fun hin => h ?_
  obtain ⟨⟨hx, hx31⟩, hy, hy31⟩ := hin
  exact ⟨⟨((u.val : Int) - dx).toNat, by omega⟩, ⟨((v.val : Int) - dy).toNat, by omega⟩,
    eq_add_of_sub_eq (Int.toNat_of_nonneg hx).symm, eq_add_of_sub_eq (Int.toNat_of_nonneg hy).symm⟩

/-- Settles O60: a pixel of the scrolled buffer is read where it came from, and is black where that is outside. -/
theorem scrollMovesPixels : Obligations.ScrollMovesPixels := by
  intro offx offy s g hg
  obtain ⟨t, k, ht, hk, hpc, honly, hedit, hbuf⟩ := next_setEditBuffer (exec_scrlbfr offx offy hg)
  refine ⟨t, k, ht, hk, hpc, honly, hedit, fun x y u v hu hv => ?_, fun u v hno => ?_⟩
  · rw [hbuf, pixel_scroll_of_moved _ hu hv]
  · rw [hbuf, pixel_scroll_of_vacated _ hno]

end Sys2Proof.Machine

/-! # Exceptions (60_exceptions.md)

That raising writes nothing is one of the cases of `Effect`. Which exception an instruction raises is said case by case
in `ExceptionSource`, and each meaning is held against it outcome by outcome, by the equations proved above. -/

namespace Sys2Proof.Machine

/-! ## What raising leaves (R185) -/

theorem Effect.eq_setStatus_of_faulted {i : Instr} {s t : State} {e : Exception} (h : Effect i s t)
    (hs : s.status = .running) (ht : t.status = .faulted e) : t = s.setStatus (.faulted e) := by
  cases h with
  | raised e' => cases ht; rfl
  | registers regs pc hregs hpc => cases hs.symm.trans ht
  | stored a v keys ha hto hkeys => cases hs.symm.trans ht
  | halted hi => cases ht
  | drew g k hg hwf hedit hdisp hi => cases hs.symm.trans ht

/-- Settles O20: of an instruction's effects only `raised` ends faulted, and a failed fetch sets the status alone. -/
theorem faultingStepWritesNothing : Obligations.FaultingStepWritesNothing := by
  intro s t e hs h ht
  obtain ⟨-, ⟨i, -, hexec⟩ | ⟨e', -, rfl⟩⟩ := step_next_cases h
  · exact (exec_effect i s t hexec).eq_setStatus_of_faulted hs ht
  · cases ht; rfl

/-! ## The sources of the exceptions (R181, R182, R184, R186) -/

/-- The exceptions an instruction executed in `s` can raise, and what each needs. None is FetchFault (R183). -/
inductive ExceptionSource (s : State) : Instr → Exception → Prop where
  | divZero (a : Operand) {b : Operand} (hb : val b s = 0) : ExceptionSource s (.div a b) .divideByZero
  | notImm (v : Word) : ExceptionSource s (.not (.imm v)) .operandTypeError
  | readImm (srcAddr : Operand) (v : Word) : ExceptionSource s (.read srcAddr (.imm v)) .operandTypeError
  | mvrImm (src : Operand) (v : Word) : ExceptionSource s (.mvr src (.imm v)) .operandTypeError
  | loadAddr (src : Operand) {dstAddr : Operand} (ha : s.ramSize ≤ (val dstAddr s).toNat) :
      ExceptionSource s (.load src dstAddr) (.memRangeFault (val dstAddr s))
  | readAddr {srcAddr : Operand} (dst : Operand) (ha : s.ramSize ≤ (val srcAddr s).toNat) :
      ExceptionSource s (.read srcAddr dst) (.memRangeFault (val srcAddr s))
  | mvmSrcAddr {srcAddr : Operand} (dstAddr : Operand) (ha : s.ramSize ≤ (val srcAddr s).toNat) :
      ExceptionSource s (.mvm srcAddr dstAddr) (.memRangeFault (val srcAddr s))
  | mvmDstAddr (srcAddr : Operand) {dstAddr : Operand} (ha : s.ramSize ≤ (val dstAddr s).toNat) :
      ExceptionSource s (.mvm srcAddr dstAddr) (.memRangeFault (val dstAddr s))
  | keyinAddr {addr : Operand} (ha : s.ramSize ≤ (val addr s).toNat) :
      ExceptionSource s (.keyin addr) (.memRangeFault (val addr s))
  | gpuRange {i : Instr} {p : Nat} (hi : isGpuMnemonic i.mnemonic = true) (hg : s.gpu.isSome = true)
      (hp : 1 ≤ p ∧ p ≤ 4) : ExceptionSource s i (.gpuRangeFault p)

/-- If the answer is a faulted state, its exception satisfies `P`. -/
def RaisesOnly (P : Exception → Prop) (r : Result) : Prop := ∀ t e, r = .next t → t.status = .faulted e → P e

section
variable {P : Exception → Prop} {r : Result}

theorem raisesOnly_of_running {t : State} (h : r = .next t) (ht : t.status = .running) : RaisesOnly P r := by
  subst h
  intro _ e hnext he
  cases hnext
  cases ht.symm.trans he

theorem raisesOnly_of_raised {s : State} {e : Exception} (h : r = .next (s.setStatus (.faulted e))) (he : P e) :
    RaisesOnly P r := by
  subst h
  intro _ e' hnext he'
  cases hnext
  cases he'
  exact he

theorem raisesOnly_of_fault {f : Fault} (h : r = .fault f) : RaisesOnly P r :=
  fun _ _ hnext _ => nomatch h.symm.trans hnext

theorem raisesOnly_of_refused {q : Refusal} (h : r = .refused q) : RaisesOnly P r :=
  fun _ _ hnext _ => nomatch h.symm.trans hnext

end

/-! ## The checks of a GPU instruction (R162) -/

/-- What fails here fails only with GpuRangeFault at one of the operand positions 1 to 4. -/
def FailsOnRange {α : Type} (x : Except Exception α) : Prop :=
  ∀ e, x = .error e → ∃ p, e = .gpuRangeFault p ∧ 1 ≤ p ∧ p ≤ 4

section
variable {α β : Type}

theorem failsOnRange_ok (a : α) : FailsOnRange (.ok a : Except Exception α) := fun _ h => nomatch h

theorem failsOnRange_error {p : Nat} (hp : 1 ≤ p ∧ p ≤ 4) :
    FailsOnRange (.error (.gpuRangeFault p) : Except Exception α) := by
  intro e h
  cases h
  exact ⟨p, rfl, hp⟩

theorem failsOnRange_bind {x : Except Exception α} {f : α → Except Exception β} (hx : FailsOnRange x)
    (hf : ∀ a, FailsOnRange (f a)) : FailsOnRange (x >>= f) := by
  intro e h
  obtain h | ⟨a, -, h⟩ := Except.bind_error_iff.mp h
  · exact hx e h
  · exact hf a e h

end

/-- An operand checked against its range, then the rest of the action. -/
theorem failsOnRange_index {β : Type} {p n : Nat} {w : Word} {f : Fin n → Except Exception β}
    (hf : ∀ a, FailsOnRange (f a)) (hp : 1 ≤ p ∧ p ≤ 4 := by decide) : FailsOnRange (gpuIndex p n w >>= f) := by
  refine failsOnRange_bind ?_ hf
  unfold gpuIndex
  split
  · exact failsOnRange_ok _
  · exact failsOnRange_error hp

theorem failsOnRange_gpuExtent {p : Nat} {w : Word} (hp : 1 ≤ p ∧ p ≤ 4 := by decide) :
    FailsOnRange (gpuExtent p w) := by
  unfold gpuExtent
  split
  · exact failsOnRange_ok _
  · exact failsOnRange_error hp

theorem failsOnRange_gpuRect (x y width height : Word) : FailsOnRange (gpuRect x y width height) := by
  refine failsOnRange_index fun a => failsOnRange_index fun b => failsOnRange_bind failsOnRange_gpuExtent fun w =>
    failsOnRange_bind failsOnRange_gpuExtent fun h => ?_
  split
  · exact failsOnRange_error (by decide)
  split
  · exact failsOnRange_error (by decide)
  · exact failsOnRange_ok _

theorem raisesOnly_gpuStep {i : Instr} {s : State} {f : Gpu → Except Exception Gpu} (hs : s.status = .running)
    (hi : isGpuMnemonic i.mnemonic = true) (hf : ∀ g, FailsOnRange (f g)) :
    RaisesOnly (ExceptionSource s i) (gpuStep s f) := by
  cases hg : s.gpu with
  | none => exact raisesOnly_of_running (gpuStep_none hg f) hs
  | some g =>
    cases hfg : f g with
    | ok g' => exact raisesOnly_of_running (gpuStep_ok hg hfg) hs
    | error e =>
      obtain ⟨p, rfl, hp⟩ := hf g e hfg
      exact raisesOnly_of_raised (gpuStep_error hg hfg) (.gpuRange hi (by simp [hg]) hp)

/-! ## Each instruction -/

section
variable {s : State} (hs : s.status = .running)
include hs

theorem raisesOnly_load (src dstAddr : Operand) :
    RaisesOnly (ExceptionSource s (.load src dstAddr)) (exec (.load src dstAddr) s) := by
  rcases Nat.lt_or_ge (val dstAddr s).toNat s.ramSize with ha | ha
  · exact raisesOnly_of_running (exec_load_of_lt src ha) hs
  · exact raisesOnly_of_raised (exec_load_of_le src ha) (.loadAddr src ha)

theorem raisesOnly_read (srcAddr dst : Operand) :
    RaisesOnly (ExceptionSource s (.read srcAddr dst)) (exec (.read srcAddr dst) s) := by
  cases dst with
  | imm v => exact raisesOnly_of_raised (exec_read_imm srcAddr v s) (.readImm srcAddr v)
  | reg d =>
    rcases Nat.lt_or_ge (val srcAddr s).toNat s.ramSize with ha | ha
    · exact raisesOnly_of_running (exec_read_of_lt d ha) hs
    · exact raisesOnly_of_raised (exec_read_of_le d ha) (.readAddr _ ha)

theorem raisesOnly_mvr (src dst : Operand) :
    RaisesOnly (ExceptionSource s (.mvr src dst)) (exec (.mvr src dst) s) := by
  cases dst with
  | imm v => exact raisesOnly_of_raised (exec_mvr_imm src v s) (.mvrImm src v)
  | reg d => exact raisesOnly_of_running (exec_mvr_reg src d s) hs

theorem raisesOnly_mvm (srcAddr dstAddr : Operand) :
    RaisesOnly (ExceptionSource s (.mvm srcAddr dstAddr)) (exec (.mvm srcAddr dstAddr) s) := by
  rcases Nat.lt_or_ge (val srcAddr s).toNat s.ramSize with hsrc | hsrc
  · rcases Nat.lt_or_ge (val dstAddr s).toNat s.ramSize with hdst | hdst
    · exact raisesOnly_of_running (exec_mvm_of_lt hsrc hdst) hs
    · exact raisesOnly_of_raised (exec_mvm_of_dst_le hsrc hdst) (.mvmDstAddr srcAddr hdst)
  · exact raisesOnly_of_raised (exec_mvm_of_src_le dstAddr hsrc) (.mvmSrcAddr dstAddr hsrc)

theorem raisesOnly_div (a b : Operand) : RaisesOnly (ExceptionSource s (.div a b)) (exec (.div a b) s) := by
  by_cases hb : val b s = 0
  · exact raisesOnly_of_raised (exec_div_of_zero a hb) (.divZero a hb)
  · exact raisesOnly_of_running (exec_div_of_ne_zero a hb) hs

theorem raisesOnly_not (a : Operand) : RaisesOnly (ExceptionSource s (.not a)) (exec (.not a) s) := by
  cases a with
  | imm v => exact raisesOnly_of_raised (exec_not_imm v s) (.notImm v)
  | reg n => exact raisesOnly_of_running (exec_not_reg n s) hs

theorem raisesOnly_jal (target : Operand) :
    RaisesOnly (ExceptionSource s (.jal target)) (exec (.jal target) s) := by
  by_cases ht : target = .reg linkReg
  · exact raisesOnly_of_refused ((exec_refused_iff _ s _).mpr ⟨rfl, congrArg Instr.jal ht⟩)
  · exact raisesOnly_of_running (exec_jal_of_ne s ht) hs

theorem raisesOnly_keyin (addr : Operand) :
    RaisesOnly (ExceptionSource s (.keyin addr)) (exec (.keyin addr) s) := by
  rcases Nat.lt_or_ge (val addr s).toNat s.ramSize with ha | ha
  · cases hk : s.keyboard with
    | nil => exact raisesOnly_of_fault (exec_keyin_blocked ha hk)
    | cons c cs => exact raisesOnly_of_running (exec_keyin_stored ha hk) hs
  · exact raisesOnly_of_raised (exec_keyin_outside (Nat.not_lt.mpr ha)) (.keyinAddr ha)

/-- An instruction with no check has one outcome, a running one; a GPU instruction has the checks of its operands. -/
theorem exec_raisesOnly (i : Instr) : RaisesOnly (ExceptionSource s i) (exec i s) := by
  cases i with
  | load src dstAddr => exact raisesOnly_load hs src dstAddr
  | read srcAddr dst => exact raisesOnly_read hs srcAddr dst
  | mvr src dst => exact raisesOnly_mvr hs src dst
  | mvm srcAddr dstAddr => exact raisesOnly_mvm hs srcAddr dstAddr
  | div a b => exact raisesOnly_div hs a b
  | not a => exact raisesOnly_not hs a
  | jal target => exact raisesOnly_jal hs target
  | keyin addr => exact raisesOnly_keyin hs addr
  | add a b => exact raisesOnly_of_running rfl hs
  | sub a b => exact raisesOnly_of_running rfl hs
  | mult a b => exact raisesOnly_of_running rfl hs
  | shl a b => exact raisesOnly_of_running rfl hs
  | shr a b => exact raisesOnly_of_running rfl hs
  | shlr a b => exact raisesOnly_of_running rfl hs
  | and a b => exact raisesOnly_of_running rfl hs
  | or a b => exact raisesOnly_of_running rfl hs
  | xor a b => exact raisesOnly_of_running rfl hs
  | jmp target => exact raisesOnly_of_running rfl hs
  | jz target cond => exact raisesOnly_of_running (jumpIf_eq_setPc _ target s) hs
  | jnz target cond => exact raisesOnly_of_running (jumpIf_eq_setPc _ target s) hs
  | jbt target x y => exact raisesOnly_of_running (jumpIf_eq_setPc _ target s) hs
  | halt => exact fun t e h ht => by cases h; cases ht
  | drline x1 y1 x2 y2 =>
    exact raisesOnly_gpuStep hs rfl fun _ => failsOnRange_index fun _ => failsOnRange_index fun _ =>
      failsOnRange_index fun _ => failsOnRange_index fun _ => failsOnRange_ok _
  | drgrd x y width height =>
    exact raisesOnly_gpuStep hs rfl fun _ => failsOnRange_bind (failsOnRange_gpuRect _ _ _ _) fun _ => failsOnRange_ok _
  | clrgrid x y width height =>
    exact raisesOnly_gpuStep hs rfl fun _ => failsOnRange_bind (failsOnRange_gpuRect _ _ _ _) fun _ => failsOnRange_ok _
  | ldspr id data =>
    exact raisesOnly_gpuStep hs rfl fun _ => failsOnRange_index fun _ => failsOnRange_index fun _ => failsOnRange_ok _
  | drspr id x y =>
    exact raisesOnly_gpuStep hs rfl fun _ => failsOnRange_index fun _ => failsOnRange_index fun _ =>
      failsOnRange_index fun _ => failsOnRange_ok _
  | ldtxt id charCode =>
    exact raisesOnly_gpuStep hs rfl fun _ => failsOnRange_index fun _ => failsOnRange_index fun _ => failsOnRange_ok _
  | drtxt id x y =>
    exact raisesOnly_gpuStep hs rfl fun _ => failsOnRange_index fun _ => failsOnRange_index fun _ =>
      failsOnRange_index fun _ => failsOnRange_ok _
  | scrlbfr offx offy => exact raisesOnly_gpuStep hs rfl fun _ => failsOnRange_ok _

end

/-- Settles O21: each source of an exception is one of those the statement names, and none gives FetchFault. -/
theorem exceptionSources : Obligations.ExceptionSources := by
  intro i s t e hs h ht
  cases exec_raisesOnly hs i t e h ht with
  | divZero a hb => exact ⟨a, _, rfl, hb⟩
  | notImm v => exact .inl ⟨v, rfl⟩
  | readImm srcAddr v => exact .inr (.inl ⟨srcAddr, v, rfl⟩)
  | mvrImm src v => exact .inr (.inr ⟨src, v, rfl⟩)
  | loadAddr src ha => exact ⟨ha, .inl ⟨src, _, rfl, rfl⟩⟩
  | readAddr dst ha => exact ⟨ha, .inr (.inl ⟨_, dst, rfl, rfl⟩)⟩
  | mvmSrcAddr dstAddr ha => exact ⟨ha, .inr (.inr (.inl ⟨_, dstAddr, rfl, .inl rfl⟩))⟩
  | mvmDstAddr srcAddr ha => exact ⟨ha, .inr (.inr (.inl ⟨srcAddr, _, rfl, .inr rfl⟩))⟩
  | keyinAddr ha => exact ⟨ha, .inr (.inr (.inr ⟨_, rfl, rfl⟩))⟩
  | gpuRange hi hg hp => exact ⟨hi, hg, hp⟩

end Sys2Proof.Machine
